-- ==== Sys2Proof/Word.lean ====
section
/-! DEFINITION. The word types of the CHIP-8 core (spec/00_scope.md R5, R9; spec/10_state.md R10, R12). Every value of the
machine is unsigned. -/

namespace Sys2Proof

/-- A byte: a general register, a timer, a memory cell, an 8-bit immediate (R5, R10). -/
abbrev Byte := BitVec 8

/-- A 16-bit word: an instruction word, `pc`, `I`, a stack entry, `fault_info` (R5, R12, R13, R14, R60). -/
abbrev Word := BitVec 16

/-- The 12-bit address field `NNN` of an instruction word (R61). -/
abbrev Addr := BitVec 12

/-- A register index: a 4-bit field, and every one of the sixteen values names a register (R10). -/
abbrev Reg := Fin 16

/-- A key code 0 to 15; a larger code cannot be expressed at the boundary (R191, decision D21). -/
abbrev Key := Fin 16

end Sys2Proof
end

