-- ==== Sys2Proof/Syntax.lean ====
section
/-! DEFINITION. The instructions: one constructor for each of the 34 rows of spec/opcode_table.json, in the order of
spec/30_encoding.md R71 (R73: a 35th is not invented). Operands are the fields of R61. A field that the instruction ignores
(the `Y` of the shifts, bits 3:0 of the register skips) is kept, so that no bit of a word is lost. -/

namespace Sys2Proof

/-- An instruction with its operand fields (R61, R71). -/
inductive Instr where
  /-- Row 1, `00E0`: clear the screen (R150). -/
  | cls
  /-- Row 2, `00EE`: return from subroutine (R103). -/
  | ret
  /-- Row 3, `1NNN`: jump (R100). -/
  | jpNnn (nnn : Addr)
  /-- Row 4, `2NNN`: call subroutine (R102). -/
  | callNnn (nnn : Addr)
  /-- Row 5, `3XNN`: skip if `VX = NN` (R104). -/
  | seVxNn (x : Reg) (nn : Byte)
  /-- Row 6, `4XNN`: skip if `VX ≠ NN` (R105). -/
  | sneVxNn (x : Reg) (nn : Byte)
  /-- Row 7, `5XY0`: skip if `VX = VY` (R106); `n` is the ignored low nibble (R69). -/
  | seVxVy (x y : Reg) (n : Nat)
  /-- Row 8, `6XNN`: load immediate (R120). -/
  | ldVxNn (x : Reg) (nn : Byte)
  /-- Row 9, `7XNN`: add immediate (R121). -/
  | addVxNn (x : Reg) (nn : Byte)
  /-- Row 10, `8XY0`: copy register (R122). -/
  | ldVxVy (x y : Reg)
  /-- Row 11, `8XY1`: bitwise or (R123). -/
  | orVxVy (x y : Reg)
  /-- Row 12, `8XY2`: bitwise and (R124). -/
  | andVxVy (x y : Reg)
  /-- Row 13, `8XY3`: bitwise exclusive or (R125). -/
  | xorVxVy (x y : Reg)
  /-- Row 14, `8XY4`: add with carry flag (R127). -/
  | addVxVy (x y : Reg)
  /-- Row 15, `8XY5`: subtract with not-borrow flag (R128). -/
  | subVxVy (x y : Reg)
  /-- Row 16, `8XY6`: shift right by one (R129); `y` is decoded and ignored. -/
  | shrVx (x y : Reg)
  /-- Row 17, `8XY7`: reverse subtract with not-borrow flag (R130). -/
  | subnVxVy (x y : Reg)
  /-- Row 18, `8XYE`: shift left by one (R131); `y` is decoded and ignored. -/
  | shlVx (x y : Reg)
  /-- Row 19, `9XY0`: skip if `VX ≠ VY` (R107); `n` is the ignored low nibble (R69). -/
  | sneVxVy (x y : Reg) (n : Nat)
  /-- Row 20, `ANNN`: load index (R132). -/
  | ldINnn (nnn : Addr)
  /-- Row 21, `BNNN`: indexed jump (R101). -/
  | jpV0Nnn (nnn : Addr)
  /-- Row 22, `CXNN`: random byte and mask (R134). -/
  | rndVxNn (x : Reg) (nn : Byte)
  /-- Row 23, `DXYN`: draw a sprite of `n` rows, 0 to 15 (R151). -/
  | drwVxVyN (x y : Reg) (n : Nat)
  /-- Row 24, `EX9E`: skip if the key is pressed (R170). -/
  | skpVx (x : Reg)
  /-- Row 25, `EXA1`: skip if the key is not pressed (R171). -/
  | sknpVx (x : Reg)
  /-- Row 26, `FX07`: read the delay timer (R152). -/
  | ldVxDt (x : Reg)
  /-- Row 27, `FX0A`: wait for a key press (R172). -/
  | ldVxK (x : Reg)
  /-- Row 28, `FX15`: set the delay timer (R153). -/
  | ldDtVx (x : Reg)
  /-- Row 29, `FX18`: set the sound timer (R154). -/
  | ldStVx (x : Reg)
  /-- Row 30, `FX1E`: add register to index (R133). -/
  | addIVx (x : Reg)
  /-- Row 31, `FX29`: point the index at a font glyph (R173). -/
  | ldFVx (x : Reg)
  /-- Row 32, `FX33`: store the decimal digits of `VX` (R174). -/
  | ldBVx (x : Reg)
  /-- Row 33, `FX55`: store the registers `V0` to `VX` (R175). -/
  | ldMemVx (x : Reg)
  /-- Row 34, `FX65`: load the registers `V0` to `VX` (R176). -/
  | ldVxMem (x : Reg)
  deriving DecidableEq, Repr

/-- A row of the opcode map R71: a word `w` is the row's instruction when `w AND mask = pattern`. -/
structure OpcodeRow where
  pattern : Word
  mask : Word
  deriving DecidableEq, Repr

end Sys2Proof
end

