-- ==== Sys2Proof/WellFormed.lean ====
section
/-! DEFINITION. Which instructions have a word. Register indices, immediates and addresses fit their fields by their types; the
three 4-bit fields that are plain counts are checked here (spec/30_encoding.md R61, R62). -/

namespace Sys2Proof

/-- A value of the 4-bit field `N` (R61). -/
def fitsNibble (n : Nat) : Bool := decide (n ≤ 15)

/-- `i` has a word: its field `N`, where it has one, fits four bits (R61). -/
def Instr.wellFormed : Instr → Bool
  | .seVxVy _ _ n => fitsNibble n
  | .sneVxVy _ _ n => fitsNibble n
  | .drwVxVyN _ _ n => fitsNibble n
  | .cls | .ret | .jpNnn _ | .callNnn _ | .seVxNn _ _ | .sneVxNn _ _ | .ldVxNn _ _ | .addVxNn _ _
  | .ldVxVy _ _ | .orVxVy _ _ | .andVxVy _ _ | .xorVxVy _ _ | .addVxVy _ _ | .subVxVy _ _
  | .shrVx _ _ | .subnVxVy _ _ | .shlVx _ _ | .ldINnn _ | .jpV0Nnn _ | .rndVxNn _ _
  | .skpVx _ | .sknpVx _ | .ldVxDt _ | .ldVxK _ | .ldDtVx _ | .ldStVx _ | .addIVx _
  | .ldFVx _ | .ldBVx _ | .ldMemVx _ | .ldVxMem _ => true

end Sys2Proof
end

