-- ==== Sys2Proof/Decode.lean ====
section
/-! DEFINITION. The decoder (spec/30_encoding.md R60 to R70), total on every word and on every byte string, and the encoder beside
it (R62, R71). Decoding is two-level (R64): the top nibble selects the family, and families 0x0, 0x8, 0xE and 0xF select further. -/

namespace Sys2Proof

/-- Why bytes decode to no instruction. -/
inductive DecodeError where
  /-- The word matches no row of the opcode map (R70). What the machine does with it is R84 or R85. -/
  | unrecognised (w : Word)
  /-- Fewer than the two bytes of an instruction word are left (R60). -/
  | truncated
  deriving DecidableEq, Repr

/-- `w[hi:lo]` (R9): the bits from `hi` down to `lo`, both included, read as an unsigned number. -/
def bitField (w : Word) (hi lo : Nat) : Nat := w.toNat / 2 ^ lo % 2 ^ (hi + 1 - lo)

/-- The family, `w[15:12]` (R61). -/
def fieldF (w : Word) : Nat := bitField w 15 12

/-- The field `X = w[11:8]` (R61). -/
def fieldX (w : Word) : Reg := Fin.ofNat 16 (bitField w 11 8)

/-- The field `Y = w[7:4]` (R61). -/
def fieldY (w : Word) : Reg := Fin.ofNat 16 (bitField w 7 4)

/-- The field `N = w[3:0]` (R61). -/
def fieldN (w : Word) : Nat := bitField w 3 0

/-- The field `NN = w[7:0]` (R61). -/
def fieldNN (w : Word) : Byte := BitVec.ofNat 8 (bitField w 7 0)

/-- The field `NNN = w[11:0]` (R61). -/
def fieldNNN (w : Word) : Addr := BitVec.ofNat 12 (bitField w 11 0)

/-- Family 0x0 matches on all sixteen bits (R65, decision D2). -/
def decodeFamily0 (w : Word) : Except DecodeError Instr :=
  if w = 0x00E0#16 then .ok .cls
  else if w = 0x00EE#16 then .ok .ret
  else .error (.unrecognised w)

/-- Family 0x8 selects on the low nibble (R66). -/
def decodeFamily8 (w : Word) : Except DecodeError Instr :=
  match fieldN w with
  | 0x0 => .ok (.ldVxVy (fieldX w) (fieldY w))
  | 0x1 => .ok (.orVxVy (fieldX w) (fieldY w))
  | 0x2 => .ok (.andVxVy (fieldX w) (fieldY w))
  | 0x3 => .ok (.xorVxVy (fieldX w) (fieldY w))
  | 0x4 => .ok (.addVxVy (fieldX w) (fieldY w))
  | 0x5 => .ok (.subVxVy (fieldX w) (fieldY w))
  | 0x6 => .ok (.shrVx (fieldX w) (fieldY w))
  | 0x7 => .ok (.subnVxVy (fieldX w) (fieldY w))
  | 0xE => .ok (.shlVx (fieldX w) (fieldY w))
  | _ => .error (.unrecognised w)

/-- Family 0xE selects on the low byte (R67, decision D2). -/
def decodeFamilyE (w : Word) : Except DecodeError Instr :=
  match bitField w 7 0 with
  | 0x9E => .ok (.skpVx (fieldX w))
  | 0xA1 => .ok (.sknpVx (fieldX w))
  | _ => .error (.unrecognised w)

/-- Family 0xF selects on the low byte (R68). -/
def decodeFamilyF (w : Word) : Except DecodeError Instr :=
  match bitField w 7 0 with
  | 0x07 => .ok (.ldVxDt (fieldX w))
  | 0x0A => .ok (.ldVxK (fieldX w))
  | 0x15 => .ok (.ldDtVx (fieldX w))
  | 0x18 => .ok (.ldStVx (fieldX w))
  | 0x1E => .ok (.addIVx (fieldX w))
  | 0x29 => .ok (.ldFVx (fieldX w))
  | 0x33 => .ok (.ldBVx (fieldX w))
  | 0x55 => .ok (.ldMemVx (fieldX w))
  | 0x65 => .ok (.ldVxMem (fieldX w))
  | _ => .error (.unrecognised w)

/-- The instruction of a word, or its rejection by name (R64 to R70). The last arm is for numbers above 15, which no
family is. -/
def decodeWord (w : Word) : Except DecodeError Instr :=
  match fieldF w with
  | 0x0 => decodeFamily0 w
  | 0x1 => .ok (.jpNnn (fieldNNN w))
  | 0x2 => .ok (.callNnn (fieldNNN w))
  | 0x3 => .ok (.seVxNn (fieldX w) (fieldNN w))
  | 0x4 => .ok (.sneVxNn (fieldX w) (fieldNN w))
  | 0x5 => .ok (.seVxVy (fieldX w) (fieldY w) (fieldN w))
  | 0x6 => .ok (.ldVxNn (fieldX w) (fieldNN w))
  | 0x7 => .ok (.addVxNn (fieldX w) (fieldNN w))
  | 0x8 => decodeFamily8 w
  | 0x9 => .ok (.sneVxVy (fieldX w) (fieldY w) (fieldN w))
  | 0xA => .ok (.ldINnn (fieldNNN w))
  | 0xB => .ok (.jpV0Nnn (fieldNNN w))
  | 0xC => .ok (.rndVxNn (fieldX w) (fieldNN w))
  | 0xD => .ok (.drwVxVyN (fieldX w) (fieldY w) (fieldN w))
  | 0xE => decodeFamilyE w
  | 0xF => decodeFamilyF w
  | _ => .error (.unrecognised w)

/-- `hi ++ lo`: the word of two bytes, the byte at the lower address first (R41, R60). -/
def wordOfBytes (hi lo : Byte) : Word := BitVec.ofNat 16 (hi.toNat * 256 + lo.toNat)

/-- The first instruction of a byte string and the bytes after it (R60: every instruction is one big-endian word). -/
def decodeBytes : List Byte → Except DecodeError (Instr × List Byte)
  | hi :: lo :: rest =>
    match decodeWord (wordOfBytes hi lo) with
    | .ok i => .ok (i, rest)
    | .error e => .error e
  | _ => .error .truncated

/-- The two bytes, as memory holds them, of the instruction whose bits are `w` when the opcode table gives its row `nbits` bits:
bit 0 of `w` is bit 0 of the instruction word, and the bits from `nbits` up are 0 (R41, R71). -/
def tableWordBytes (nbits w : Nat) : Byte × Byte :=
  (BitVec.ofNat 8 (w % 2 ^ nbits / 256), BitVec.ofNat 8 (w % 2 ^ nbits))

/-- What the decoder reads from the instruction whose bits are `w`, numbered as the opcode table numbers them. -/
def decodeTableWord (nbits w : Nat) : Option Instr :=
  match decodeBytes [(tableWordBytes nbits w).1, (tableWordBytes nbits w).2] with
  | .ok (i, _) => some i
  | .error _ => none

/-! ## The encoder -/

/-- Format ADDR (R62): family and 12-bit address. -/
def packAddr (f : Nat) (nnn : Addr) : Word := BitVec.ofNat 16 (f * 4096 + nnn.toNat)

/-- Formats REG_IMM and REG_OP (R62): family, register, low byte. -/
def packRegByte (f : Nat) (x : Reg) (nn : Nat) : Word := BitVec.ofNat 16 (f * 4096 + x.val * 256 + nn)

/-- Formats REG_REG, REG_REG_OP and REG_REG_N (R62): family, two registers, low nibble. -/
def packRegReg (f : Nat) (x y : Reg) (n : Nat) : Word := BitVec.ofNat 16 (f * 4096 + x.val * 256 + y.val * 16 + n)

/-- The word of a well-formed instruction (R62, R71). -/
def encode : Instr → Word
  | .cls => 0x00E0#16
  | .ret => 0x00EE#16
  | .jpNnn nnn => packAddr 0x1 nnn
  | .callNnn nnn => packAddr 0x2 nnn
  | .seVxNn x nn => packRegByte 0x3 x nn.toNat
  | .sneVxNn x nn => packRegByte 0x4 x nn.toNat
  | .seVxVy x y n => packRegReg 0x5 x y n
  | .ldVxNn x nn => packRegByte 0x6 x nn.toNat
  | .addVxNn x nn => packRegByte 0x7 x nn.toNat
  | .ldVxVy x y => packRegReg 0x8 x y 0x0
  | .orVxVy x y => packRegReg 0x8 x y 0x1
  | .andVxVy x y => packRegReg 0x8 x y 0x2
  | .xorVxVy x y => packRegReg 0x8 x y 0x3
  | .addVxVy x y => packRegReg 0x8 x y 0x4
  | .subVxVy x y => packRegReg 0x8 x y 0x5
  | .shrVx x y => packRegReg 0x8 x y 0x6
  | .subnVxVy x y => packRegReg 0x8 x y 0x7
  | .shlVx x y => packRegReg 0x8 x y 0xE
  | .sneVxVy x y n => packRegReg 0x9 x y n
  | .ldINnn nnn => packAddr 0xA nnn
  | .jpV0Nnn nnn => packAddr 0xB nnn
  | .rndVxNn x nn => packRegByte 0xC x nn.toNat
  | .drwVxVyN x y n => packRegReg 0xD x y n
  | .skpVx x => packRegByte 0xE x 0x9E
  | .sknpVx x => packRegByte 0xE x 0xA1
  | .ldVxDt x => packRegByte 0xF x 0x07
  | .ldVxK x => packRegByte 0xF x 0x0A
  | .ldDtVx x => packRegByte 0xF x 0x15
  | .ldStVx x => packRegByte 0xF x 0x18
  | .addIVx x => packRegByte 0xF x 0x1E
  | .ldFVx x => packRegByte 0xF x 0x29
  | .ldBVx x => packRegByte 0xF x 0x33
  | .ldMemVx x => packRegByte 0xF x 0x55
  | .ldVxMem x => packRegByte 0xF x 0x65

/-- The bytes of an instruction in memory order, high byte first (R41, R72). -/
def encodeBytes (i : Instr) : List Byte :=
  [BitVec.ofNat 8 ((encode i).toNat / 256), BitVec.ofNat 8 (encode i).toNat]

/-! ## The opcode map as a table -/

/-- The row of the opcode map an instruction belongs to (R71, columns `match` and `mask`). -/
def Instr.row : Instr → OpcodeRow
  | .cls => ⟨0x00E0, 0xFFFF⟩
  | .ret => ⟨0x00EE, 0xFFFF⟩
  | .jpNnn _ => ⟨0x1000, 0xF000⟩
  | .callNnn _ => ⟨0x2000, 0xF000⟩
  | .seVxNn _ _ => ⟨0x3000, 0xF000⟩
  | .sneVxNn _ _ => ⟨0x4000, 0xF000⟩
  | .seVxVy _ _ _ => ⟨0x5000, 0xF000⟩
  | .ldVxNn _ _ => ⟨0x6000, 0xF000⟩
  | .addVxNn _ _ => ⟨0x7000, 0xF000⟩
  | .ldVxVy _ _ => ⟨0x8000, 0xF00F⟩
  | .orVxVy _ _ => ⟨0x8001, 0xF00F⟩
  | .andVxVy _ _ => ⟨0x8002, 0xF00F⟩
  | .xorVxVy _ _ => ⟨0x8003, 0xF00F⟩
  | .addVxVy _ _ => ⟨0x8004, 0xF00F⟩
  | .subVxVy _ _ => ⟨0x8005, 0xF00F⟩
  | .shrVx _ _ => ⟨0x8006, 0xF00F⟩
  | .subnVxVy _ _ => ⟨0x8007, 0xF00F⟩
  | .shlVx _ _ => ⟨0x800E, 0xF00F⟩
  | .sneVxVy _ _ _ => ⟨0x9000, 0xF000⟩
  | .ldINnn _ => ⟨0xA000, 0xF000⟩
  | .jpV0Nnn _ => ⟨0xB000, 0xF000⟩
  | .rndVxNn _ _ => ⟨0xC000, 0xF000⟩
  | .drwVxVyN _ _ _ => ⟨0xD000, 0xF000⟩
  | .skpVx _ => ⟨0xE09E, 0xF0FF⟩
  | .sknpVx _ => ⟨0xE0A1, 0xF0FF⟩
  | .ldVxDt _ => ⟨0xF007, 0xF0FF⟩
  | .ldVxK _ => ⟨0xF00A, 0xF0FF⟩
  | .ldDtVx _ => ⟨0xF015, 0xF0FF⟩
  | .ldStVx _ => ⟨0xF018, 0xF0FF⟩
  | .addIVx _ => ⟨0xF01E, 0xF0FF⟩
  | .ldFVx _ => ⟨0xF029, 0xF0FF⟩
  | .ldBVx _ => ⟨0xF033, 0xF0FF⟩
  | .ldMemVx _ => ⟨0xF055, 0xF0FF⟩
  | .ldVxMem _ => ⟨0xF065, 0xF0FF⟩

/-- The 34 rows of R71, in its order. -/
def opcodeMap : List OpcodeRow :=
  [⟨0x00E0, 0xFFFF⟩, ⟨0x00EE, 0xFFFF⟩, ⟨0x1000, 0xF000⟩, ⟨0x2000, 0xF000⟩, ⟨0x3000, 0xF000⟩, ⟨0x4000, 0xF000⟩,
   ⟨0x5000, 0xF000⟩, ⟨0x6000, 0xF000⟩, ⟨0x7000, 0xF000⟩] ++
  [⟨0x8000, 0xF00F⟩, ⟨0x8001, 0xF00F⟩, ⟨0x8002, 0xF00F⟩, ⟨0x8003, 0xF00F⟩, ⟨0x8004, 0xF00F⟩, ⟨0x8005, 0xF00F⟩,
   ⟨0x8006, 0xF00F⟩, ⟨0x8007, 0xF00F⟩, ⟨0x800E, 0xF00F⟩] ++
  [⟨0x9000, 0xF000⟩, ⟨0xA000, 0xF000⟩, ⟨0xB000, 0xF000⟩, ⟨0xC000, 0xF000⟩, ⟨0xD000, 0xF000⟩, ⟨0xE09E, 0xF0FF⟩,
   ⟨0xE0A1, 0xF0FF⟩] ++
  [⟨0xF007, 0xF0FF⟩, ⟨0xF00A, 0xF0FF⟩, ⟨0xF015, 0xF0FF⟩, ⟨0xF018, 0xF0FF⟩, ⟨0xF01E, 0xF0FF⟩, ⟨0xF029, 0xF0FF⟩,
   ⟨0xF033, 0xF0FF⟩, ⟨0xF055, 0xF0FF⟩, ⟨0xF065, 0xF0FF⟩]

/-- `w` matches the row (R71). -/
def OpcodeRow.matches (r : OpcodeRow) (w : Word) : Bool := w &&& r.mask == r.pattern

end Sys2Proof
end

