-- ==== Sys2Proof/Config.lean ====
section
/-! DEFINITION. What is fixed for the life of a machine (spec/00_scope.md R6, spec/10_state.md R24) and the one free value of the
model, the random byte (R8, R134). The parameters are plain data that a state carries along and nothing changes, so that a
statement about every state is a statement about every choice of the parameters (log entry 1). -/

namespace Sys2Proof

/-- The parameters the source leaves open (R6). -/
structure Config where
  /-- `STRICT_DECODE`: an unrecognised word faults (`true`, R85) or does nothing (`false`, R84). -/
  strictDecode : Bool
  /-- `STACK_DEPTH`: how many return addresses the call stack holds, at least 1 (R14). -/
  stackDepth : Nat
  /-- `FONT`: the 80 bytes at addresses 0 to 79 after reset, five for each of the sixteen glyphs (R16). -/
  font : Vector Byte 80
  deriving DecidableEq, Repr

/-- R6: `STACK_DEPTH` is at least 1; the other two parameters are unconstrained. -/
abbrev Config.wf (c : Config) : Prop := 1 ≤ c.stackDepth

/-- The default of `FONT`: the table of R16, one glyph a line (from general knowledge, log entry 7). -/
def Config.defaultFont : Vector Byte 80 :=
  #v[0xF0, 0x90, 0x90, 0x90, 0xF0,
     0x20, 0x60, 0x20, 0x20, 0x70,
     0xF0, 0x10, 0xF0, 0x80, 0xF0,
     0xF0, 0x10, 0xF0, 0x10, 0xF0,
     0x90, 0x90, 0xF0, 0x10, 0x10,
     0xF0, 0x80, 0xF0, 0x10, 0xF0,
     0xF0, 0x80, 0xF0, 0x90, 0xF0,
     0xF0, 0x10, 0x20, 0x40, 0x40,
     0xF0, 0x90, 0xF0, 0x90, 0xF0,
     0xF0, 0x90, 0xF0, 0x10, 0xF0,
     0xF0, 0x90, 0xF0, 0x90, 0x90,
     0xE0, 0x90, 0xE0, 0x90, 0xE0,
     0xF0, 0x80, 0x80, 0x80, 0xF0,
     0xE0, 0x90, 0x90, 0x90, 0xE0,
     0xF0, 0x80, 0xF0, 0x80, 0xF0,
     0xF0, 0x80, 0xF0, 0x80, 0x80]

/-- The defaults of R6: legacy-permissive decoding, sixteen stack entries, the customary font (log entry 7). -/
def Config.default : Config where
  strictDecode := false
  stackDepth := 16
  font := Config.defaultFont

/-- `Draw()` (R8, R134; decision D15): the byte the random source gives at its `k`-th draw. A FREE VALUE: the generator is
outside the block and nothing constrains the byte, so it has no body (log entry 3). -/
opaque Config.draw : Nat → Byte

end Sys2Proof
end

