-- ==== Sys2Proof/Machine/State.lean ====
section
/-! DEFINITION. The state of the core as plain data (spec/10_state.md R10 to R24), the two types the host's outcome is built
over, and the state after power-on (spec/70_reset_and_hazards.md R240, R241). -/

namespace Sys2Proof.Machine

/-- How a step could stop the machine. NO STEP DOES: every fault of the spec is latched in the state (`State.fault`,
`FaultCause`) and the machine goes on to its timer phase (spec/60_exceptions.md R211, R215), so a fault of the spec is a next
state and this type is empty. Raised by nobody; safe (log entry 2). -/
inductive Fault where
  deriving DecidableEq, Repr

/-- Why an instruction has no meaning in the model. -/
inductive Refusal where
  /-- An arm of `exec` whose instruction has no meaning yet, by its mnemonic. Every instruction of the opcode table has its
  meaning, so nobody raises it; safe. -/
  | notModelled (mnemonic : String)
  deriving DecidableEq, Repr

/-- `run_state` (R21). -/
inductive RunState where
  | running
  | awaitingKey
  deriving DecidableEq, Repr

/-- `fault_cause` (spec/60_exceptions.md R210). -/
inductive FaultCause where
  /-- Code 0: no fault is latched. -/
  | none
  /-- Code 1: an unrecognised word under `STRICT_DECODE` (R85). -/
  | illegalInstruction
  /-- Code 2: `pc > 4094` at the start of an instruction phase (R81). -/
  | fetchOutOfRange
  /-- Code 3: DXYN, FX33, FX55, FX65 reach above address 4095 (R43, R45). -/
  | memoryOutOfRange
  /-- Code 4: 2NNN on a full stack (R102). -/
  | stackOverflow
  /-- Code 5: 00EE on an empty stack (R103). -/
  | stackUnderflow
  /-- Code 6: DXYN reaches a cell above 2047 (R151). -/
  | framebufferOutOfRange
  /-- Code 7: EX9E, EXA1 with a key index above 15 (R170, R171). -/
  | keyIndexOutOfRange
  deriving DecidableEq, Repr

/-- Memory as (address, byte) cells; its canonical form is `Memory.wf` (log entry 5). -/
abbrev Memory := List Host.Cell

/-- The screen as 32 rows of 64 one-bit cells; cell `x + y * 64` (R17) is bit `x` of row `y` (log entry 6). -/
abbrev Framebuffer := Vector (BitVec 64) 32

/-- Everything the spec gives the machine (spec/10_state.md, summary table). -/
structure State where
  /-- The parameters `STRICT_DECODE`, `STACK_DEPTH`, `FONT` (R24), which nothing changes. -/
  cfg : Config
  /-- `V0` to `VF` (R10); `VF` is also the flag (R11). -/
  v : Vector Byte 16
  /-- `I` (R13). -/
  index : Word
  /-- `pc` (R12). -/
  pc : Word
  /-- The live entries `stack[0..sp-1]`, oldest first; `sp` is their number (R14). -/
  stack : List Word
  /-- `mem` (R15). -/
  mem : Memory
  /-- `fb` (R17). -/
  fb : Framebuffer
  /-- `DT` (R18). -/
  dt : Byte
  /-- `ST` (R18). -/
  st : Byte
  /-- `key[0..15]` (R19). -/
  key : Vector Bool 16
  /-- `draw_ready` (R20). -/
  drawReady : Bool
  /-- `buzz_ready` (R20). -/
  buzzReady : Bool
  /-- `run_state` (R21). -/
  runState : RunState
  /-- `wait_reg` (R21). -/
  waitReg : Reg
  /-- `fault` (R22). -/
  fault : Bool
  /-- `fault_cause` (R22). -/
  faultCause : FaultCause
  /-- `fault_info` (R22). -/
  faultInfo : Word
  /-- The model's own: how many bytes have been drawn from the random source, which picks the next free value `Config.draw`
  (R8, R23; log entry 3). -/
  draws : Nat
  deriving DecidableEq, Repr

/-- The machine after power-on, with the default parameters (R240, R241): `pc` at 0x0200, every register, timer, cell and flag
0, the stack empty, RUNNING, no fault, no key held, memory at its reset contents (nothing listed). -/
def State.reset : State where
  cfg := Config.default
  v := Vector.replicate 16 0
  index := 0
  pc := 0x0200
  stack := []
  mem := []
  fb := Vector.replicate 32 0
  dt := 0
  st := 0
  key := Vector.replicate 16 false
  drawReady := false
  buzzReady := false
  runState := .running
  waitReg := 0
  fault := false
  faultCause := .none
  faultInfo := 0
  draws := 0

end Sys2Proof.Machine
end

