-- ==== Sys2Proof/Machine/Ops.lean ====
section
/-! DEFINITION. The named operations over registers, memory, the stack, the framebuffer, the keys and the fault latch, and the two
ends of a cycle that are no instruction's: reading the word at `pc` (spec/40_cycle_step.md R82) and the timer phase (R86). -/

namespace Sys2Proof.Machine

/-- What a step answers. -/
abbrev Answer := Host.Outcome State Fault Refusal

/-! ## Registers (R10, R12) -/

/-- `V[x]`. -/
def State.reg (s : State) (x : Reg) : Byte := s.v[x]

/-- `V[x] <- b`. -/
def State.setReg (s : State) (x : Reg) (b : Byte) : State := { s with v := s.v.set x.val b x.isLt }

/-- The index of VF, the flag register (R11). -/
def flagReg : Reg := 15

/-- `pc <- (pc + k) mod 65536` (R12, R108). -/
def State.advance (s : State) (k : Word) : State := { s with pc := s.pc + k }

/-- A skip: over the next two bytes when `c` holds (R108). -/
def State.skipIf (s : State) (c : Bool) : State := s.advance (if c then 4 else 2)

/-! ## Memory (R15, R43, R45) -/

/-- What an address that `Memory` does not list reads as: the reset contents, `FONT` at 0 to 79 and 0 above (R15). -/
def unlisted (c : Config) (a : Nat) : Byte := if h : a < 80 then c.font[a] else 0

/-- The listed byte at an address. -/
def Memory.lookup : Memory → Nat → Option Byte
  | [], _ => none
  | (k, b) :: m, a => if k = a then some b else Memory.lookup m a

/-- List a byte, keeping addresses rising. -/
def Memory.put : Memory → Nat → Byte → Memory
  | [], a, b => [(a, b)]
  | (k, c) :: m, a, b =>
    if a < k then (a, b) :: (k, c) :: m
    else if a = k then (a, b) :: m
    else (k, c) :: Memory.put m a b

/-- Unlist an address. -/
def Memory.drop (m : Memory) (a : Nat) : Memory := m.filter (fun cell => cell.1 != a)

/-- The byte an address reads as. -/
def Memory.read (c : Config) (m : Memory) (a : Nat) : Byte := (m.lookup a).getD (unlisted c a)

/-- Write a byte. An address above 4095 has no byte, and nothing is written there (R15: "no write outside [0,4096)"). -/
def Memory.write (c : Config) (m : Memory) (a : Nat) (b : Byte) : Memory :=
  if a < 4096 then (if b = unlisted c a then m.drop a else m.put a b) else m

/-- The canonical form of memory: addresses strictly rising and below 4096, no byte listed that would be read anyway. -/
abbrev Memory.wf (c : Config) (m : Memory) : Prop :=
  m.Pairwise (fun p q => p.1 < q.1) ∧ ∀ p ∈ m, p.1 < 4096 ∧ p.2 ≠ unlisted c p.1

/-- `mem[a]` (R15, R43). -/
def State.byteAt (s : State) (a : Nat) : Byte := s.mem.read s.cfg a

/-- Write bytes at ascending addresses from `a` (R42). -/
def Memory.writeBytes (c : Config) : Memory → Nat → List Byte → Memory
  | m, _, [] => m
  | m, a, b :: bs => Memory.writeBytes c (m.write c a b) (a + 1) bs

/-- `mem[a], mem[a + 1], ... <- bytes` (R42, R45). -/
def State.storeBytes (s : State) (a : Nat) (bytes : List Byte) : State :=
  { s with mem := s.mem.writeBytes s.cfg a bytes }

/-- The word at `pc`, high byte first (R41, R44, R82). -/
def State.fetchWord (s : State) : Word := wordOfBytes (s.byteAt s.pc.toNat) (s.byteAt (s.pc.toNat + 1))

/-! ## Call stack (R14) -/

/-- `sp`: the number of live entries. -/
def State.sp (s : State) : Nat := s.stack.length

/-- `Push(a)`, or nothing when the stack is full. -/
def State.push (s : State) (a : Word) : Option State :=
  if s.cfg.stackDepth ≤ s.sp then none else some { s with stack := s.stack ++ [a] }

/-- `Pop()`: the newest entry and the state without it, or nothing when the stack is empty. -/
def State.pop (s : State) : Option (Word × State) :=
  match s.stack.getLast? with
  | none => none
  | some a => some (a, { s with stack := s.stack.dropLast })

/-! ## Framebuffer (R17) -/

/-- `fb[idx]`; there is no cell above 2047. -/
def cell (f : Framebuffer) (idx : Nat) : Bool :=
  if h : idx < 2048 then f[idx / 64].getLsbD (idx % 64) else false

/-- `fb[idx] <- fb[idx] XOR 1`. -/
def flipCell (f : Framebuffer) (idx : Nat) : Framebuffer :=
  if h : idx < 2048 then f.set (idx / 64) (f[idx / 64] ^^^ BitVec.twoPow 64 (idx % 64)) else f

/-- All cells 0. -/
def blankScreen : Framebuffer := Vector.replicate 32 0

/-! ## Keys (R19) -/

/-- `key[k]`; there is no key above 15. -/
def State.keyHeld (s : State) (k : Nat) : Bool := if h : k < 16 then s.key[k] else false

/-- `key[k] <- b`. -/
def State.setKey (s : State) (k : Key) (b : Bool) : State := { s with key := s.key.set k.val b k.isLt }

/-! ## Faults: the one way an exception is taken (spec/60_exceptions.md R210, R211)

There is no trap entry and no return from a fault (R215, R216). -/

/-- `fault_cause`, 3 bits (R210). -/
def FaultCause.code : FaultCause → BitVec 3
  | .none => 0
  | .illegalInstruction => 1
  | .fetchOutOfRange => 2
  | .memoryOutOfRange => 3
  | .stackOverflow => 4
  | .stackUnderflow => 5
  | .framebufferOutOfRange => 6
  | .keyIndexOutOfRange => 7

/-- `raise Fault(cause, info)`, applied to the state the instruction phase began with: every write of the phase is discarded and
the fault is latched (R211). -/
def State.raise (s : State) (cause : FaultCause) (info : Nat) : State :=
  { s with fault := true, faultCause := cause, faultInfo := BitVec.ofNat 16 info }

/-- Check the `len` bytes from `I`, then go on with `k`: when the highest address exceeds 4095, `MemoryOutOfRange` with the
lowest address of the range that does not exist. No byte, no check (R43, R45, R46, R151, R174 to R176). -/
def State.checkMemory (s : State) (len : Nat) (k : Answer) : Answer :=
  if 0 < len ∧ 4095 < s.index.toNat + (len - 1) then
    .next (s.raise .memoryOutOfRange (max s.index.toNat 4096))
  else k

/-! ## The timer phase (R86) -/

/-- One decrement, never below zero. -/
def countDown (b : Byte) : Byte := if b = 0 then 0 else b - 1

/-- The timer phase of every cycle: both timers count down, and `buzz_ready` is set when `ST` goes from 1 to 0. -/
def State.timerPhase (s : State) : State :=
  { s with dt := countDown s.dt, st := countDown s.st, buzzReady := s.buzzReady || s.st == 1 }

end Sys2Proof.Machine
end

