-- ==== Sys2Proof/Machine/Operands.lean ====
section
/-! DEFINITION. The operand forms: zero-extended fields (spec/30_encoding.md R63), the register block of FX55 and FX65, the decimal
digits of FX33, the sprite of DXYN. -/

namespace Sys2Proof.Machine

/-- `zext_16` of the field `NNN` (R63). -/
def addrWord (nnn : Addr) : Word := nnn.setWidth 16

/-- `zext_16` of a byte (R9). -/
def byteWord (b : Byte) : Word := b.setWidth 16

/-- The bytes FX55 stores: `V0` to `VX`, in ascending order (R175). -/
def State.regBlock (s : State) (x : Reg) : List Byte := s.v.toList.take (x.val + 1)

/-- The registers after FX65: `V0` to `VX` from the bytes at `I`, the others kept (R176). -/
def State.loadBlock (s : State) (x : Reg) : Vector Byte 16 :=
  Vector.ofFn fun i : Fin 16 => if i.val ≤ x.val then s.byteAt (s.index.toNat + i.val) else s.v[i]

/-- The decimal digits FX33 stores: hundreds, tens, ones (R174). -/
def decimalDigits (b : Byte) : List Byte :=
  [BitVec.ofNat 8 (b.toNat / 100), BitVec.ofNat 8 (b.toNat / 10 % 10), BitVec.ofNat 8 (b.toNat % 10)]

/-- The rows of a sprite: the `n` bytes from `I`, top row first (R155). -/
def State.spriteRows (s : State) (n : Nat) : List Byte :=
  (List.range n).map fun row => s.byteAt (s.index.toNat + row)

/-- The pixel of a sprite row at column `col` 0 to 7: bit 7 is the leftmost (R155, decision D13). -/
def rowPixel (b : Byte) (col : Nat) : Bool := b.getLsbD (7 - col)

/-- The largest cell index of a sprite of `n ≥ 1` rows at column `x`, row `y` (R151). -/
def lastCell (x y n : Nat) : Nat := x + 7 + (y + n - 1) * 64

/-- Draw one pixel: a 1 bit flips its cell, and the collision flag is set when the cell was 1; a 0 bit does nothing (R151). -/
def plot (p : Framebuffer × Bool) (idx : Nat) (bit : Bool) : Framebuffer × Bool :=
  if bit then (flipCell p.1 idx, p.2 || cell p.1 idx) else p

/-- Draw one row of a sprite, whose column 0 is the cell `start`. -/
def plotRow (start : Nat) (b : Byte) (p : Framebuffer × Bool) : Framebuffer × Bool :=
  (List.range 8).foldl (fun p col => plot p (start + col) (rowPixel b col)) p

/-- Draw the rows of a sprite, each 64 cells after the one before (R155: the index is flat, nothing wraps or clips). -/
def plotRows : List Byte → Nat → Framebuffer × Bool → Framebuffer × Bool
  | [], _, p => p
  | b :: rows, start, p => plotRows rows (start + 64) (plotRow start b p)

end Sys2Proof.Machine
end

