-- ==== Sys2Proof/Machine/Flags.lean ====
section
/-! DEFINITION. Every flag the spec computes into VF (spec/10_state.md R11, spec/42_arithmetic.md R126), and the order in which a
flag and a result are written (R135, decision D6). -/

namespace Sys2Proof.Machine

/-- A flag as VF holds it: 0 or 1 (R11). -/
def flagByte (c : Bool) : Byte := if c then 1 else 0

/-- Carry of 8XY4: `b > 255 - a`, that is `a + b > 255` (R127). -/
def carry (a b : Byte) : Bool := decide (255 - a.toNat < b.toNat)

/-- The subtract flag of 8XY5 and 8XY7: the minuend strictly greater than the subtrahend (R128, R130; 90_conflicts.md C4). -/
def strictlyGreater (minuend subtrahend : Byte) : Bool := decide (subtrahend.toNat < minuend.toNat)

/-- The flag of BOTH shifts: bit 0 before the shift (R129, R131; 90_conflicts.md C6). -/
def lowBit (a : Byte) : Bool := a.getLsbD 0

/-- The flag of FX1E: the new index above 0x0FFF (R133). -/
def aboveMemory (i : Word) : Bool := decide (0x0FFF < i.toNat)

/-- `V[0xF] <- flag`. -/
def State.setFlag (s : State) (c : Bool) : State := s.setReg flagReg (flagByte c)

/-- The two statements of a flag-writing instruction, in their order: the flag into VF, then the result into `V[x]`, computed
from the registers as the first statement left them (R127 to R131, R135; decision D6, log entry 12). -/
def State.flagThenResult (s : State) (x : Reg) (flag : Bool) (result : State → Byte) : State :=
  (s.setFlag flag).setReg x (result (s.setFlag flag))

end Sys2Proof.Machine
end

