-- ==== Sys2Proof/Machine/Arithmetic.lean ====
section
/-! DEFINITION. Register load, arithmetic, logic, shift, index and random instructions (spec/42_arithmetic.md). None can fault. -/

namespace Sys2Proof.Machine

/-- 6XNN `LD VX, NN` (R120). -/
def execLdVxNn (x : Reg) (nn : Byte) (s : State) : Answer := .next ((s.setReg x nn).advance 2)

/-- 7XNN `ADD VX, NN` (R121): VF is not written. -/
def execAddVxNn (x : Reg) (nn : Byte) (s : State) : Answer := .next ((s.setReg x (s.reg x + nn)).advance 2)

/-- 8XY0 `LD VX, VY` (R122). -/
def execLdVxVy (x y : Reg) (s : State) : Answer := .next ((s.setReg x (s.reg y)).advance 2)

/-- 8XY1 `OR VX, VY` (R123). -/
def execOrVxVy (x y : Reg) (s : State) : Answer := .next ((s.setReg x (s.reg x ||| s.reg y)).advance 2)

/-- 8XY2 `AND VX, VY` (R124). -/
def execAndVxVy (x y : Reg) (s : State) : Answer := .next ((s.setReg x (s.reg x &&& s.reg y)).advance 2)

/-- 8XY3 `XOR VX, VY` (R125). -/
def execXorVxVy (x y : Reg) (s : State) : Answer := .next ((s.setReg x (s.reg x ^^^ s.reg y)).advance 2)

/-- 8XY4 `ADD VX, VY` (R127). -/
def execAddVxVy (x y : Reg) (s : State) : Answer :=
  .next ((s.flagThenResult x (carry (s.reg x) (s.reg y)) fun t => t.reg x + t.reg y).advance 2)

/-- 8XY5 `SUB VX, VY` (R128). -/
def execSubVxVy (x y : Reg) (s : State) : Answer :=
  .next ((s.flagThenResult x (strictlyGreater (s.reg x) (s.reg y)) fun t => t.reg x - t.reg y).advance 2)

/-- 8XY6 `SHR VX` (R129); `Y` is ignored. -/
def execShrVx (x _y : Reg) (s : State) : Answer :=
  .next ((s.flagThenResult x (lowBit (s.reg x)) fun t => t.reg x >>> 1).advance 2)

/-- 8XY7 `SUBN VX, VY` (R130). -/
def execSubnVxVy (x y : Reg) (s : State) : Answer :=
  .next ((s.flagThenResult x (strictlyGreater (s.reg y) (s.reg x)) fun t => t.reg y - t.reg x).advance 2)

/-- 8XYE `SHL VX` (R131); `Y` is ignored, and VF gets bit 0, not bit 7. -/
def execShlVx (x _y : Reg) (s : State) : Answer :=
  .next ((s.flagThenResult x (lowBit (s.reg x)) fun t => t.reg x <<< 1).advance 2)

/-- ANNN `LD I, NNN` (R132). -/
def execLdINnn (nnn : Addr) (s : State) : Answer := .next ({ s with index := addrWord nnn }.advance 2)

/-- FX1E `ADD I, VX` (R133): the index wraps modulo 65536 and the flag tests the new index. -/
def execAddIVx (x : Reg) (s : State) : Answer :=
  let i := s.index + byteWord (s.reg x)
  .next (({ s with index := i }.setFlag (aboveMemory i)).advance 2)

/-- CXNN `RND VX, NN` (R134): one byte is drawn. -/
def execRndVxNn (x : Reg) (nn : Byte) (s : State) : Answer :=
  .next (({ s with draws := s.draws + 1 }.setReg x (Config.draw s.draws &&& nn)).advance 2)

end Sys2Proof.Machine
end

