-- ==== Sys2Proof/Machine/ControlFlow.lean ====
section
/-! DEFINITION. The control-flow instructions (spec/41_control_flow.md). Each writes `pc` itself (R108). -/

namespace Sys2Proof.Machine

/-- 1NNN `JP NNN` (R100). -/
def execJpNnn (nnn : Addr) (s : State) : Answer := .next { s with pc := addrWord nnn }

/-- BNNN `JP V0, NNN` (R101). -/
def execJpV0Nnn (nnn : Addr) (s : State) : Answer :=
  .next { s with pc := addrWord nnn + byteWord (s.reg 0) }

/-- 2NNN `CALL NNN` (R102). -/
def execCallNnn (nnn : Addr) (s : State) : Answer :=
  match s.push (s.pc + 2) with
  | none => .next (s.raise .stackOverflow s.pc.toNat)
  | some t => .next { t with pc := addrWord nnn }

/-- 00EE `RET` (R103). -/
def execRet (s : State) : Answer :=
  match s.pop with
  | none => .next (s.raise .stackUnderflow s.pc.toNat)
  | some (a, t) => .next { t with pc := a }

/-- 3XNN `SE VX, NN` (R104). -/
def execSeVxNn (x : Reg) (nn : Byte) (s : State) : Answer := .next (s.skipIf (s.reg x == nn))

/-- 4XNN `SNE VX, NN` (R105). -/
def execSneVxNn (x : Reg) (nn : Byte) (s : State) : Answer := .next (s.skipIf (s.reg x != nn))

/-- 5XY0 `SE VX, VY` (R106); the low nibble is ignored (R69). -/
def execSeVxVy (x y : Reg) (_n : Nat) (s : State) : Answer := .next (s.skipIf (s.reg x == s.reg y))

/-- 9XY0 `SNE VX, VY` (R107); the low nibble is ignored (R69). -/
def execSneVxVy (x y : Reg) (_n : Nat) (s : State) : Answer := .next (s.skipIf (s.reg x != s.reg y))

end Sys2Proof.Machine
end

