-- ==== Sys2Proof/Machine/Display.lean ====
section
/-! DEFINITION. The display and timer instructions (spec/43_display_timers.md). -/

namespace Sys2Proof.Machine

/-- 00E0 `CLS` (R150). -/
def execCls (s : State) : Answer := .next ({ s with fb := blankScreen, drawReady := true }.advance 2)

/-- DXYN `DRW VX, VY, N` (R151, R155): the coordinates are sampled first, memory is checked before the framebuffer, and both
before anything is written. -/
def execDrwVxVyN (x y : Reg) (n : Nat) (s : State) : Answer :=
  let column := (s.reg x).toNat
  let row := (s.reg y).toNat
  s.checkMemory n <|
    if 0 < n ∧ 2047 < lastCell column row n then
      .next (s.raise .framebufferOutOfRange (lastCell column row n))
    else
      let drawn := plotRows (s.spriteRows n) (column + row * 64) (s.fb, false)
      .next (({ s with fb := drawn.1, drawReady := true }.setFlag drawn.2).advance 2)

/-- FX07 `LD VX, DT` (R152). -/
def execLdVxDt (x : Reg) (s : State) : Answer := .next ((s.setReg x s.dt).advance 2)

/-- FX15 `LD DT, VX` (R153). -/
def execLdDtVx (x : Reg) (s : State) : Answer := .next ({ s with dt := s.reg x }.advance 2)

/-- FX18 `LD ST, VX` (R154). -/
def execLdStVx (x : Reg) (s : State) : Answer := .next ({ s with st := s.reg x }.advance 2)

end Sys2Proof.Machine
end

