-- ==== Sys2Proof/Machine/KeyboardMemory.lean ====
section
/-! DEFINITION. The keyboard and memory-block instructions (spec/44_keyboard_memory.md). -/

namespace Sys2Proof.Machine

/-- A skip on a key: the index is not reduced to four bits, and above 15 it faults (R170, R171). -/
def State.skipOnKey (s : State) (k : Byte) (held : Bool) : Answer :=
  if 15 < k.toNat then .next (s.raise .keyIndexOutOfRange k.toNat)
  else .next (s.skipIf (s.keyHeld k.toNat == held))

/-- EX9E `SKP VX` (R170). -/
def execSkpVx (x : Reg) (s : State) : Answer := s.skipOnKey (s.reg x) true

/-- EXA1 `SKNP VX` (R171). -/
def execSknpVx (x : Reg) (s : State) : Answer := s.skipOnKey (s.reg x) false

/-- FX0A `LD VX, K` (R172): `pc` advances now; the register is written by the key press that ends the wait (R191). -/
def execLdVxK (x : Reg) (s : State) : Answer :=
  .next ({ s with runState := .awaitingKey, waitReg := x }.advance 2)

/-- FX29 `LD F, VX` (R173). -/
def execLdFVx (x : Reg) (s : State) : Answer := .next ({ s with index := byteWord (s.reg x) * 5 }.advance 2)

/-- FX33 `LD B, VX` (R174). -/
def execLdBVx (x : Reg) (s : State) : Answer :=
  s.checkMemory 3 <|
    .next ((s.storeBytes s.index.toNat (decimalDigits (s.reg x))).advance 2)

/-- FX55 `LD [I], VX` (R175): `I` is unchanged. -/
def execLdMemVx (x : Reg) (s : State) : Answer :=
  s.checkMemory (x.val + 1) <|
    .next ((s.storeBytes s.index.toNat (s.regBlock x)).advance 2)

/-- FX65 `LD VX, [I]` (R176): `I` is unchanged. -/
def execLdVxMem (x : Reg) (s : State) : Answer :=
  s.checkMemory (x.val + 1) <|
    .next ({ s with v := s.loadBlock x }.advance 2)

end Sys2Proof.Machine
end

