-- ==== Sys2Proof/Machine/Dispatch.lean ====
section
/-! DEFINITION. One arm per instruction: the rule of its row (spec/40_cycle_step.md R83, spec/30_encoding.md R71). -/

namespace Sys2Proof.Machine

def exec (i : Instr) (s : State) : Host.Outcome State Fault Refusal :=
  match i with
  | .cls => Sys2Proof.Machine.execCls s
  | .ret => Sys2Proof.Machine.execRet s
  | .jpNnn nnn => Sys2Proof.Machine.execJpNnn nnn s
  | .callNnn nnn => Sys2Proof.Machine.execCallNnn nnn s
  | .seVxNn x nn => Sys2Proof.Machine.execSeVxNn x nn s
  | .sneVxNn x nn => Sys2Proof.Machine.execSneVxNn x nn s
  | .seVxVy x y n => Sys2Proof.Machine.execSeVxVy x y n s
  | .ldVxNn x nn => Sys2Proof.Machine.execLdVxNn x nn s
  | .addVxNn x nn => Sys2Proof.Machine.execAddVxNn x nn s
  | .ldVxVy x y => Sys2Proof.Machine.execLdVxVy x y s
  | .orVxVy x y => Sys2Proof.Machine.execOrVxVy x y s
  | .andVxVy x y => Sys2Proof.Machine.execAndVxVy x y s
  | .xorVxVy x y => Sys2Proof.Machine.execXorVxVy x y s
  | .addVxVy x y => Sys2Proof.Machine.execAddVxVy x y s
  | .subVxVy x y => Sys2Proof.Machine.execSubVxVy x y s
  | .shrVx x y => Sys2Proof.Machine.execShrVx x y s
  | .subnVxVy x y => Sys2Proof.Machine.execSubnVxVy x y s
  | .shlVx x y => Sys2Proof.Machine.execShlVx x y s
  | .sneVxVy x y n => Sys2Proof.Machine.execSneVxVy x y n s
  | .ldINnn nnn => Sys2Proof.Machine.execLdINnn nnn s
  | .jpV0Nnn nnn => Sys2Proof.Machine.execJpV0Nnn nnn s
  | .rndVxNn x nn => Sys2Proof.Machine.execRndVxNn x nn s
  | .drwVxVyN x y n => Sys2Proof.Machine.execDrwVxVyN x y n s
  | .skpVx x => Sys2Proof.Machine.execSkpVx x s
  | .sknpVx x => Sys2Proof.Machine.execSknpVx x s
  | .ldVxDt x => Sys2Proof.Machine.execLdVxDt x s
  | .ldVxK x => Sys2Proof.Machine.execLdVxK x s
  | .ldDtVx x => Sys2Proof.Machine.execLdDtVx x s
  | .ldStVx x => Sys2Proof.Machine.execLdStVx x s
  | .addIVx x => Sys2Proof.Machine.execAddIVx x s
  | .ldFVx x => Sys2Proof.Machine.execLdFVx x s
  | .ldBVx x => Sys2Proof.Machine.execLdBVx x s
  | .ldMemVx x => Sys2Proof.Machine.execLdMemVx x s
  | .ldVxMem x => Sys2Proof.Machine.execLdVxMem x s

end Sys2Proof.Machine
end

