-- ==== Sys2Proof/Machine/Cycle.lean ====
section
/-! DEFINITION. The instruction phase of a cycle (spec/40_cycle_step.md R80 to R85, R87). -/

namespace Sys2Proof.Machine

/-- No instruction executes while a fault is latched or the machine waits for a key (R80, R87). -/
def State.blocked (s : State) : Bool := s.fault || s.runState == .awaitingKey

/-- A word that is no instruction: a fault under `STRICT_DECODE` (R85), otherwise nothing at all (R84). -/
def State.unrecognisedWord (s : State) (w : Word) : State :=
  if s.cfg.strictDecode then s.raise .illegalInstruction w.toNat else s

/-- The instruction phase: blocked, out of fetch range (R81), an instruction (R83), or an unrecognised word. -/
def instructionPhase (s : State) : Answer :=
  if s.blocked then .next s
  else if 4094 < s.pc.toNat then .next (s.raise .fetchOutOfRange s.pc.toNat)
  else
    match decodeWord s.fetchWord with
    | .ok i => exec i s
    | .error _ => .next (s.unrecognisedWord s.fetchWord)

/-- The timer phase, "every cycle, whatever happened above" (R80). -/
def withTimerPhase (a : Answer) : Answer :=
  match a with
  | .next t => .next t.timerPhase
  | .fault r => .fault r
  | .refused r => .refused r

/-- `s` with nothing in the way of the next fetch: RUNNING, no fault, and `pc` where two bytes can be read. -/
def State.readyToFetch (s : State) : State :=
  { s with
    runState := .running, fault := false, faultCause := .none, faultInfo := 0,
    pc := if 4094 < s.pc.toNat then 0x0200 else s.pc }

/-- Two bytes at `pc`. -/
def State.placeAtPc (s : State) (bytes : Byte × Byte) : State :=
  s.storeBytes s.pc.toNat [bytes.1, bytes.2]

end Sys2Proof.Machine
end

