-- ==== Sys2Proof/Machine/Step.lean ====
section
/-! DEFINITION. The machine's one step (spec/40_cycle_step.md R80), and placing an instruction where it fetches next. -/

namespace Sys2Proof.Machine

/-- `step()`: the instruction phase, then the timer phase (R80). -/
def step (s : State) : Host.Outcome State Fault Refusal := withTimerPhase (instructionPhase s)

/-- `s` with the instruction whose bits are `w` (numbered as the opcode table numbers them) stored at `pc`, and ready to fetch
it: it stands for the host's `load_rom` (R195), and from `State.reset` it changes the two bytes at 0x200 only (log entry 17). -/
def State.withFetchWord (s : State) (nbits w : Nat) : State :=
  s.readyToFetch.placeAtPc (tableWordBytes nbits w)

end Sys2Proof.Machine
end

