-- ==== Sys2Proof/Machine/HostOps.lean ====
section
/-! DEFINITION. The host operations that are not `step()` (spec/45_host_operations.md R190 to R198, spec/70_reset_and_hazards.md
R240). Each is atomic, falls between two cycles and is available in every state (R190, decision D30). -/

namespace Sys2Proof.Machine

/-- `reset()` (R240): everything to its reset value, but the key states, the random source and the parameters, which it does
not touch. -/
def hostReset (s : State) : State :=
  { State.reset with cfg := s.cfg, key := s.key, draws := s.draws }

/-- How `load_rom` ends (R195). -/
inductive LoadResult where
  | accepted
  /-- The image is longer than 3584 bytes: the whole load is refused and nothing is written. -/
  | imageTooLarge
  deriving DecidableEq, Repr

/-- Whether `load_rom` takes an image (R195). -/
def loadResult (image : List Byte) : LoadResult := if 3584 < image.length then .imageTooLarge else .accepted

/-- `load_rom(image)` (R195): the bytes from 0x200 up, or nothing at all. -/
def loadRom (image : List Byte) (s : State) : State :=
  match loadResult image with
  | .accepted => s.storeBytes 0x200 image
  | .imageTooLarge => s

/-- `key_press(k)` (R191): a press ends a wait, whatever the key's old state, and always marks the key as held. -/
def keyPress (k : Key) (s : State) : State :=
  match s.runState with
  | .awaitingKey => ({ s with runState := .running }.setReg s.waitReg (BitVec.ofNat 8 k.val)).setKey k true
  | .running => s.setKey k true

/-- `key_release(k)` (R192). -/
def keyRelease (k : Key) (s : State) : State := s.setKey k false

/-- `take_draw_ready()` (R193): the flag, and the state with the flag cleared. -/
def takeDrawReady (s : State) : Bool × State := (s.drawReady, { s with drawReady := false })

/-- `take_buzz_ready()` (R194): the flag, and the state with the flag cleared. -/
def takeBuzzReady (s : State) : Bool × State := (s.buzzReady, { s with buzzReady := false })

/-- `fb_read(idx)` (R196). -/
def fbRead (idx : Fin 2048) (s : State) : Bool := cell s.fb idx.val

/-- What `status()` returns (R198). -/
structure Status where
  fault : Bool
  faultCause : BitVec 3
  faultInfo : Word
  awaitingKey : Bool
  deriving DecidableEq, Repr

/-- `status()` (R198). -/
def status (s : State) : Status where
  fault := s.fault
  faultCause := s.faultCause.code
  faultInfo := s.faultInfo
  awaitingKey := s.runState == .awaitingKey

end Sys2Proof.Machine
end

