-- ==== Sys2Proof/Machine/Operations.lean ====
section
/-! DEFINITION. An execution of the machine as a sequence of host operations (spec/00_scope.md R7, spec/45_host_operations.md
R190): what each does to the state and what it returns to the host. -/

namespace Sys2Proof.Machine

/-- The moves of the host (R190). -/
inductive HostOp where
  | reset
  | loadRom (image : List Byte)
  | step
  | keyPress (k : Key)
  | keyRelease (k : Key)
  | takeDrawReady
  | takeBuzzReady
  | fbRead (idx : Fin 2048)
  | status
  deriving DecidableEq, Repr

/-- What an operation returns (R190 to R198). -/
inductive Reply where
  | nothing
  | loaded (r : LoadResult)
  | bit (b : Bool)
  | status (r : Status)
  deriving DecidableEq, Repr

/-- The state after an operation. -/
def perform (op : HostOp) (s : State) : Answer :=
  match op with
  | .reset => .next (hostReset s)
  | .loadRom image => .next (Sys2Proof.Machine.loadRom image s)
  | .step => Sys2Proof.Machine.step s
  | .keyPress k => .next (Sys2Proof.Machine.keyPress k s)
  | .keyRelease k => .next (Sys2Proof.Machine.keyRelease k s)
  | .takeDrawReady => .next (Sys2Proof.Machine.takeDrawReady s).2
  | .takeBuzzReady => .next (Sys2Proof.Machine.takeBuzzReady s).2
  | .fbRead _ => .next s
  | .status => .next s

/-- What an operation returns, performed on `s`. -/
def reply (op : HostOp) (s : State) : Reply :=
  match op with
  | .reset => .nothing
  | .loadRom image => .loaded (loadResult image)
  | .step => .nothing
  | .keyPress _ => .nothing
  | .keyRelease _ => .nothing
  | .takeDrawReady => .bit (Sys2Proof.Machine.takeDrawReady s).1
  | .takeBuzzReady => .bit (Sys2Proof.Machine.takeBuzzReady s).1
  | .fbRead idx => .bit (Sys2Proof.Machine.fbRead idx s)
  | .status => .status (Sys2Proof.Machine.status s)

/-- An execution: the operations in their total order (R7). -/
def performAll : List HostOp → State → Answer
  | [], s => .next s
  | op :: ops, s =>
    match perform op s with
    | .next t => performAll ops t
    | .fault r => .fault r
    | .refused r => .refused r

end Sys2Proof.Machine
end

