-- ==== Sys2Proof/Safety.lean ====
section
/-! DEFINITION. The terms that claims are made in: what a change leaves alone (frames), what a latched fault is, when a cycle
executes an instruction, the ends and hangs of a program, and the invariant of the machine. -/

namespace Sys2Proof.Machine

/-! ## Frames -/

/-- The parts of the state, for saying which of them something may change. -/
inductive Part where
  | registers
  | index
  | pc
  | stack
  | memory
  | screen
  | drawReady
  | delayTimer
  | soundTimer
  | buzzReady
  | keys
  | waiting
  | faultLatch
  | draws
  | parameters
  deriving DecidableEq, Repr

/-- `s` and `t` have this part alike. Memory is compared through the read of one byte, the screen cell by cell. -/
def Part.Same : Part → State → State → Prop
  | .registers, s, t => ∀ j, t.reg j = s.reg j
  | .index, s, t => t.index = s.index
  | .pc, s, t => t.pc = s.pc
  | .stack, s, t => t.stack = s.stack
  | .memory, s, t => ∀ a, t.byteAt a = s.byteAt a
  | .screen, s, t => ∀ j, cell t.fb j = cell s.fb j
  | .drawReady, s, t => t.drawReady = s.drawReady
  | .delayTimer, s, t => t.dt = s.dt
  | .soundTimer, s, t => t.st = s.st
  | .buzzReady, s, t => t.buzzReady = s.buzzReady
  | .keys, s, t => t.key = s.key
  | .waiting, s, t => t.runState = s.runState ∧ t.waitReg = s.waitReg
  | .faultLatch, s, t => t.fault = s.fault ∧ t.faultCause = s.faultCause ∧ t.faultInfo = s.faultInfo
  | .draws, s, t => t.draws = s.draws
  | .parameters, s, t => t.cfg = s.cfg

/-- The frame: from `s` to `t` every part outside `parts` is unchanged. -/
def ChangesOnly (parts : List Part) (s t : State) : Prop := ∀ p, p ∉ parts → p.Same s t

/-- The registers an instruction may write: its destination, VF for the seven flag writers of R11, `V0` to `VX` for FX65. -/
def mayWrite (i : Instr) (j : Reg) : Bool :=
  match i with
  | .ldVxNn x _ | .addVxNn x _ | .ldVxVy x _ | .orVxVy x _ | .andVxVy x _ | .xorVxVy x _ | .rndVxNn x _ | .ldVxDt x => j == x
  | .addVxVy x _ | .subVxVy x _ | .shrVx x _ | .subnVxVy x _ | .shlVx x _ => j == x || j == flagReg
  | .addIVx _ | .drwVxVyN _ _ _ => j == flagReg
  | .ldVxMem x => decide (j.val ≤ x.val)
  | .cls | .ret | .jpNnn _ | .callNnn _ | .seVxNn _ _ | .sneVxNn _ _ | .seVxVy _ _ _ | .sneVxVy _ _ _
  | .ldINnn _ | .jpV0Nnn _ | .skpVx _ | .sknpVx _ | .ldVxK _ | .ldDtVx _ | .ldStVx _ | .ldFVx _ | .ldBVx _
  | .ldMemVx _ => false

/-! ## Faults -/

/-- A fault latched from `s` to `t`: the cause and the information recorded, and nothing else changed (R211). -/
def Latches (s t : State) (cause : FaultCause) (info : Nat) : Prop :=
  t.fault = true ∧ t.faultCause = cause ∧ t.faultInfo.toNat = info ∧ ChangesOnly [.faultLatch] s t

/-- The table of R210 for the causes that an instruction raises: condition, cause and information. One condition is the
model's and not the table's: StackOverflow at `STACK_DEPTH` entries OR MORE, where the table says `sp = STACK_DEPTH` (log
entry 21, DESIGN CHOICE; the two agree wherever `sp` is within R14's bound). -/
def faultOf (i : Instr) (s : State) : Option (FaultCause × Nat) :=
  match i with
  | .callNnn _ => if s.cfg.stackDepth ≤ s.sp then some (.stackOverflow, s.pc.toNat) else none
  | .ret => if s.sp = 0 then some (.stackUnderflow, s.pc.toNat) else none
  | .skpVx x | .sknpVx x => if 15 < (s.reg x).toNat then some (.keyIndexOutOfRange, (s.reg x).toNat) else none
  | .ldBVx _ => if 4095 < s.index.toNat + 2 then some (.memoryOutOfRange, max s.index.toNat 4096) else none
  | .ldMemVx x | .ldVxMem x =>
    if 4095 < s.index.toNat + x.val then some (.memoryOutOfRange, max s.index.toNat 4096) else none
  | .drwVxVyN x y n =>
    if n = 0 then none
    else if 4095 < s.index.toNat + n - 1 then some (.memoryOutOfRange, max s.index.toNat 4096)
    else if 2047 < (s.reg x).toNat + 7 + ((s.reg y).toNat + n - 1) * 64 then
      some (.framebufferOutOfRange, (s.reg x).toNat + 7 + ((s.reg y).toNat + n - 1) * 64)
    else none
  | .cls | .jpNnn _ | .seVxNn _ _ | .sneVxNn _ _ | .seVxVy _ _ _ | .sneVxVy _ _ _ | .ldVxNn _ _ | .addVxNn _ _
  | .ldVxVy _ _ | .orVxVy _ _ | .andVxVy _ _ | .xorVxVy _ _ | .addVxVy _ _ | .subVxVy _ _ | .shrVx _ _
  | .subnVxVy _ _ | .shlVx _ _ | .ldINnn _ | .jpV0Nnn _ | .rndVxNn _ _ | .ldVxDt _ | .ldVxK _ | .ldDtVx _
  | .ldStVx _ | .addIVx _ | .ldFVx _ => none

/-! ## Cycles -/

/-- The cycle fetches a word: no fault latched, RUNNING, and two bytes at `pc` (R80, R81). -/
def State.Fetches (s : State) : Prop := s.fault = false ∧ s.runState = .running ∧ s.pc.toNat ≤ 4094

/-- `n` calls of `step()` with no other host operation between them (R7, R190). -/
def cycles (n : Nat) (s : State) : Answer := performAll (List.replicate n .step) s

/-- `n` cycles in which only the timer phase did anything: both timers `n` lower, not below zero, and `buzz_ready` set if the
sound timer ran out in them (R86). -/
def OnlyTimersRan (n : Nat) (s t : State) : Prop :=
  t.dt.toNat = s.dt.toNat - n ∧ t.st.toNat = s.st.toNat - n ∧
  (t.buzzReady = true ↔ s.buzzReady = true ∨ (0 < s.st.toNat ∧ s.st.toNat ≤ n)) ∧
  ChangesOnly [.delayTimer, .soundTimer, .buzzReady] s t

/-- A finished program as R243 lets a model define it: parked on a jump to itself, with no fault (decision D26). -/
def State.Parked (s : State) : Prop :=
  s.pc.toNat ≤ 4094 ∧ s.fetchWord.toNat = 0x1000 + s.pc.toNat ∧ s.fault = false

/-- Sprite row `row`, column `col` of the draw `DXYN` in `s` is a 1 bit on cell `j` (R155). -/
def SpriteOn (s : State) (x y : Reg) (n j : Nat) : Prop :=
  ∃ row < n, ∃ col < 8, j = (s.reg x).toNat + col + ((s.reg y).toNat + row) * 64 ∧
    (s.byteAt (s.index.toNat + row)).getLsbD (7 - col) = true

/-- The draw is fault-free: every sprite byte and every one of its cells exists (R151). -/
def DrawFits (s : State) (x y : Reg) (n : Nat) : Prop :=
  0 < n → s.index.toNat + n - 1 ≤ 4095 ∧ (s.reg x).toNat + 7 + ((s.reg y).toNat + n - 1) * 64 ≤ 2047

/-! ## The invariant -/

/-- What every state reachable from power-on satisfies. -/
structure State.Inv (s : State) : Prop where
  /-- Memory is in canonical form, no byte outside [0, 4096) (R15). -/
  memory : s.mem.wf s.cfg
  /-- `sp` is in 0..STACK_DEPTH (R14). -/
  stack : s.sp ≤ s.cfg.stackDepth
  /-- Every return address is at most 4096 (R12). -/
  returns : ∀ a ∈ s.stack, a.toNat ≤ 4096
  /-- `pc` is at most 0x10FE (R12). -/
  pc : s.pc.toNat ≤ 0x10FE
  /-- Cause 0 means no fault, and only that (R210). -/
  cause : s.faultCause = .none ↔ s.fault = false
  /-- No fault, no information (R210). -/
  info : s.fault = false → s.faultInfo = 0
  /-- Cause 1 occurs under `STRICT_DECODE` only (R210). -/
  strict : s.faultCause = .illegalInstruction → s.cfg.strictDecode = true
  /-- A faulted machine never waits for a key (R191). -/
  exclusive : s.fault = true → s.runState = .running

end Sys2Proof.Machine
end

