-- ==== Sys2Proof/Certificates/Slice0/Obligations.lean ====
section
/-! DEFINITION. The statements for the provers, in the order of OBLIGATIONS.json. Each docstring names the rule of spec/ the
statement formalises; where a clause rests on one of the spec's own decisions (spec/92_eei_decisions.md) or on a choice of the
model (notes/assumptions/), it says so. -/

open Sys2Proof Sys2Proof.Machine

/-! ## Words and instructions -/

/-- Words written out from spec/95_test_vectors.md section 2.1: what they decode as, and two that are unrecognised. -/
def Obligations.SampleWordsDecode : Prop :=
  decodeWord 0x00E0 = .ok .cls ∧ decodeWord 0x1ABC = .ok (.jpNnn 0xABC) ∧ decodeWord 0x3A7F = .ok (.seVxNn 10 0x7F) ∧
  decodeWord 0x8AB4 = .ok (.addVxVy 10 11) ∧ decodeWord 0x8ABE = .ok (.shlVx 10 11) ∧
  decodeWord 0xD01F = .ok (.drwVxVyN 0 1 15) ∧ decodeWord 0xE4A1 = .ok (.sknpVx 4) ∧ decodeWord 0xFF65 = .ok (.ldVxMem 15) ∧
  decodeWord 0x0123 = .error (.unrecognised 0x0123) ∧ decodeWord 0x8AB8 = .error (.unrecognised 0x8AB8)

/-- Decode and encode agree, for every well-formed instruction at every operand value: its word and its bytes decode to it,
and the bytes after it are left (30_encoding.md sections "Length and fields" and "The opcode map"). -/
def Obligations.DecodeOfEncodeIsTheInstruction : Prop :=
  ∀ i : Instr, i.wellFormed = true →
    decodeWord (encode i) = .ok i ∧ ∀ rest, decodeBytes (encodeBytes i ++ rest) = .ok (i, rest)

/-- The other direction: a word that decodes is the encoding of a well-formed instruction, so no bit of it is dropped (the
ignored fields are kept as syntax). -/
def Obligations.EncodeOfDecodeIsTheWord : Prop :=
  ∀ (w : Word) (i : Instr), decodeWord w = .ok i → i.wellFormed = true ∧ encode i = w

/-- R70, R71: a word is recognised exactly when it matches a row of the opcode map; it decodes to that row's instruction; no
word matches two rows; a rejection names the word. -/
def Obligations.RecognisedWordsAreTheOpcodeMap : Prop :=
  ∀ w : Word,
    ((∃ i, decodeWord w = .ok i) ↔ ∃ r ∈ opcodeMap, r.matches w = true) ∧
    (∀ i, decodeWord w = .ok i → i.row ∈ opcodeMap ∧ i.row.matches w = true) ∧
    (∀ r ∈ opcodeMap, ∀ q ∈ opcodeMap, r.matches w = true → q.matches w = true → r = q) ∧
    (∀ e, decodeWord w = .error e → e = .unrecognised w)

/-! ## The cycle -/

/-- R82: fetch reads `w <- mem[pc] ++ mem[pc+1]`, the byte at the lower address high, at every `pc` that has two bytes, odd or
even; it changes no state: the instruction this word decodes as starts from the state of the fetch, `pc` included. -/
def Obligations.FetchIsTheBigEndianWordAtPc : Prop :=
  ∀ s : State, s.pc.toNat ≤ 4094 →
    s.fetchWord.toNat = (s.byteAt s.pc.toNat).toNat * 256 + (s.byteAt (s.pc.toNat + 1)).toNat ∧
    (s.Fetches → ∀ i, decodeWord s.fetchWord = .ok i → instructionPhase s = exec i s)

/-- R80, R83: in a cycle that fetches, a decoded word's instruction is the whole instruction phase; the timer phase follows. -/
def Obligations.StepRunsTheDecodedInstruction : Prop :=
  ∀ (s t : State) (i : Instr), s.Fetches → decodeWord s.fetchWord = .ok i → exec i s = .next t →
    step s = .next t.timerPhase

/-- R86: every cycle completes, whatever its instruction phase did, and ends with the timer phase: each timer lowered by one
when above 0 and left at 0 otherwise, `buzz_ready` set when this takes `ST` from 1 to 0 and by nothing else in the cycle, and
nothing else changed. The timers are those the instruction phase left. -/
def Obligations.EveryCycleEndsWithTheTimerPhase : Prop :=
  ∀ s : State, ∃ t u : State, instructionPhase s = .next t ∧ step s = .next u ∧
    u.dt.toNat = t.dt.toNat - 1 ∧ u.st.toNat = t.st.toNat - 1 ∧
    (u.buzzReady = true ↔ s.buzzReady = true ∨ t.st = 1) ∧
    ChangesOnly [.delayTimer, .soundTimer, .buzzReady] t u

/-- R84: with `STRICT_DECODE = false` the instruction phase of an unrecognised word changes nothing, and the timer phase runs. -/
def Obligations.UnrecognisedWordDoesNothing : Prop :=
  ∀ (s : State) (e : DecodeError), s.Fetches → s.cfg.strictDecode = false → decodeWord s.fetchWord = .error e →
    instructionPhase s = .next s ∧ step s = .next s.timerPhase

/-- R85, R81 (decisions D1, D11, D14): an unrecognised word under `STRICT_DECODE` latches IllegalInstruction with the word; a
`pc` above 4094 latches FetchOutOfRange with `pc`; the timer phase of the same cycle still runs (D24). -/
def Obligations.IllegalAndUnfetchableWordsFault : Prop :=
  (∀ (s : State) (e : DecodeError), s.Fetches → s.cfg.strictDecode = true → decodeWord s.fetchWord = .error e →
    ∃ t, instructionPhase s = .next t ∧ step s = .next t.timerPhase ∧
      Latches s t .illegalInstruction s.fetchWord.toNat) ∧
  (∀ s : State, s.fault = false → s.runState = .running → 4094 < s.pc.toNat →
    ∃ t, instructionPhase s = .next t ∧ step s = .next t.timerPhase ∧ Latches s t .fetchOutOfRange s.pc.toNat)

/-- R87, R215, R223 (decisions D14, D24): while AWAITING_KEY or faulted, `n` cycles are `n` timer phases and nothing else. -/
def Obligations.BlockedCyclesOnlyRunTheTimers : Prop :=
  ∀ (n : Nat) (s : State), s.fault = true ∨ s.runState = .awaitingKey →
    ∃ t, cycles n s = .next t ∧ OnlyTimersRan n s t

/-- R89: with `STRICT_DECODE = false`, `n` cycles at an unrecognised word are `n` timer phases and nothing else, for every `n`:
the machine never executes another instruction. -/
def Obligations.UnrecognisedWordIsALivelock : Prop :=
  ∀ (n : Nat) (s : State) (e : DecodeError), s.Fetches → s.cfg.strictDecode = false → decodeWord s.fetchWord = .error e →
    ∃ t, cycles n s = .next t ∧ OnlyTimersRan n s t

/-- R243 (decision D26, the spec's own definition of a finished program): a parked machine that runs stays parked, and its
cycles are timer phases and nothing else. -/
def Obligations.ParkedProgramStaysParked : Prop :=
  ∀ (n : Nat) (s : State), s.Parked → s.runState = .running →
    ∃ t, cycles n s = .next t ∧ t.Parked ∧ OnlyTimersRan n s t

/-! ## Control flow -/

/-- R100: `pc <- zext_16(NNN)`; no register, no flag and nothing else changes. -/
def Obligations.JumpGoesToItsAddress : Prop :=
  ∀ (nnn : Addr) (s : State), ∃ t, exec (.jpNnn nnn) s = .next t ∧ t.pc.toNat = nnn.toNat ∧ ChangesOnly [.pc] s t

/-- R132, R101 (decision D5: semantics from general knowledge): ANNN sets `I` to the address; BNNN sets `pc` to the sum of the
address and V0, not masked to 12 bits. -/
def Obligations.LoadIndexAndIndexedJump : Prop :=
  ∀ (nnn : Addr) (s : State),
    (∃ t, exec (.ldINnn nnn) s = .next t ∧ t.index.toNat = nnn.toNat ∧ t.pc = s.pc + 2 ∧ ChangesOnly [.index, .pc] s t) ∧
    (∃ t, exec (.jpV0Nnn nnn) s = .next t ∧ t.pc.toNat = nnn.toNat + (s.reg 0).toNat ∧ ChangesOnly [.pc] s t)

/-- R102: with room on the stack, a call pushes `pc + 2` as the newest entry and goes to its address. -/
def Obligations.CallPushesTheReturnAddress : Prop :=
  ∀ (nnn : Addr) (s : State), s.sp < s.cfg.stackDepth →
    ∃ t, exec (.callNnn nnn) s = .next t ∧ t.stack = s.stack ++ [s.pc + 2] ∧ t.pc.toNat = nnn.toNat ∧
      ChangesOnly [.stack, .pc] s t

/-- R103: a return goes to the newest entry and removes it, with no increment after. -/
def Obligations.ReturnPopsTheNewestEntry : Prop :=
  ∀ (s : State) (rest : List Word) (a : Word), s.stack = rest ++ [a] →
    ∃ t, exec .ret s = .next t ∧ t.pc = a ∧ t.stack = rest ∧ ChangesOnly [.stack, .pc] s t

/-- R14, R102, R103 (decisions D8, D9, D14): a call on a full stack and a return on an empty one fault with `pc`, and nothing
else changes. -/
def Obligations.FullAndEmptyStacksFault : Prop :=
  (∀ (nnn : Addr) (s : State), s.sp = s.cfg.stackDepth →
    ∃ t, exec (.callNnn nnn) s = .next t ∧ Latches s t .stackOverflow s.pc.toNat) ∧
  (∀ s : State, s.sp = 0 → ∃ t, exec .ret s = .next t ∧ Latches s t .stackUnderflow s.pc.toNat)

/-- The subroutine round trip of the source (95_test_vectors.md S5): a call at a step that fetches it, then a return executed
wherever the call went, comes back to the address after the call with the stack as it was. -/
def Obligations.CallThenReturnComesBack : Prop :=
  ∀ (nnn : Addr) (s : State), s.sp < s.cfg.stackDepth →
    ∃ t u, exec (.callNnn nnn) s = .next t ∧ exec .ret t = .next u ∧ u.pc = s.pc + 2 ∧ u.stack = s.stack ∧
      ChangesOnly [.pc] s u

/-- R104, R105: 3XNN skips when `V[X] = NN`, 4XNN when `V[X] /= NN`: `pc + 4` when taken, `pc + 2` when not, nothing else. -/
def Obligations.ImmediateSkips : Prop :=
  ∀ (x : Reg) (nn : Byte) (s : State),
    (∃ t, exec (.seVxNn x nn) s = .next t ∧ (s.reg x = nn → t.pc = s.pc + 4) ∧ (s.reg x ≠ nn → t.pc = s.pc + 2) ∧
      ChangesOnly [.pc] s t) ∧
    (∃ t, exec (.sneVxNn x nn) s = .next t ∧ (s.reg x ≠ nn → t.pc = s.pc + 4) ∧ (s.reg x = nn → t.pc = s.pc + 2) ∧
      ChangesOnly [.pc] s t)

/-- R106, R107: 5XY0 skips when `V[X] = V[Y]`, 9XY0 when they differ. For every low nibble `n` alike (R69, decision D3). -/
def Obligations.RegisterSkips : Prop :=
  ∀ (x y : Reg) (n : Nat) (s : State),
    (∃ t, exec (.seVxVy x y n) s = .next t ∧ (s.reg x = s.reg y → t.pc = s.pc + 4) ∧
      (s.reg x ≠ s.reg y → t.pc = s.pc + 2) ∧ ChangesOnly [.pc] s t) ∧
    (∃ t, exec (.sneVxVy x y n) s = .next t ∧ (s.reg x ≠ s.reg y → t.pc = s.pc + 4) ∧
      (s.reg x = s.reg y → t.pc = s.pc + 2) ∧ ChangesOnly [.pc] s t)

/-- R170, R171: with `V[X] <= 15`, EX9E skips when that key is held and EXA1 when it is not; above 15 both fault with the
index, which is not reduced to four bits (decision D27). -/
def Obligations.KeySkips : Prop :=
  ∀ (x : Reg) (s : State),
    (∀ k : Fin 16, (s.reg x).toNat = k.val →
      (∃ t, exec (.skpVx x) s = .next t ∧ t.pc = (if s.key[k] = true then s.pc + 4 else s.pc + 2) ∧ ChangesOnly [.pc] s t) ∧
      (∃ t, exec (.sknpVx x) s = .next t ∧ t.pc = (if s.key[k] = true then s.pc + 2 else s.pc + 4) ∧
        ChangesOnly [.pc] s t)) ∧
    (15 < (s.reg x).toNat →
      (∃ t, exec (.skpVx x) s = .next t ∧ Latches s t .keyIndexOutOfRange (s.reg x).toNat) ∧
      (∃ t, exec (.sknpVx x) s = .next t ∧ Latches s t .keyIndexOutOfRange (s.reg x).toNat))

/-! ## Load, arithmetic, logic, shift, index, random -/

/-- R120, R121, R122 (decision D5: semantics from general knowledge): load immediate, add immediate modulo 256 with no flag,
copy register; no register but `V[X]` changes. -/
def Obligations.LoadsAndAddImmediate : Prop :=
  ∀ (x y : Reg) (nn : Byte) (s : State),
    (∃ t, exec (.ldVxNn x nn) s = .next t ∧ (∀ j, t.reg j = if j = x then nn else s.reg j) ∧ t.pc = s.pc + 2 ∧
      ChangesOnly [.registers, .pc] s t) ∧
    (∃ t, exec (.addVxNn x nn) s = .next t ∧ (t.reg x).toNat = ((s.reg x).toNat + nn.toNat) % 256 ∧
      (∀ j, j ≠ x → t.reg j = s.reg j) ∧ t.pc = s.pc + 2 ∧ ChangesOnly [.registers, .pc] s t) ∧
    (∃ t, exec (.ldVxVy x y) s = .next t ∧ (∀ j, t.reg j = if j = x then s.reg y else s.reg j) ∧ t.pc = s.pc + 2 ∧
      ChangesOnly [.registers, .pc] s t)

/-- R123, R124, R125: bitwise OR, AND, XOR into `V[X]`, bit by bit; no other register is mutated, VF included. -/
def Obligations.LogicOperations : Prop :=
  ∀ (x y : Reg) (s : State),
    (∃ t, exec (.orVxVy x y) s = .next t ∧
      (∀ b, (t.reg x).getLsbD b = ((s.reg x).getLsbD b || (s.reg y).getLsbD b)) ∧
      (∀ j, j ≠ x → t.reg j = s.reg j) ∧ t.pc = s.pc + 2 ∧ ChangesOnly [.registers, .pc] s t) ∧
    (∃ t, exec (.andVxVy x y) s = .next t ∧
      (∀ b, (t.reg x).getLsbD b = ((s.reg x).getLsbD b && (s.reg y).getLsbD b)) ∧
      (∀ j, j ≠ x → t.reg j = s.reg j) ∧ t.pc = s.pc + 2 ∧ ChangesOnly [.registers, .pc] s t) ∧
    (∃ t, exec (.xorVxVy x y) s = .next t ∧
      (∀ b, (t.reg x).getLsbD b = ((s.reg x).getLsbD b ^^ (s.reg y).getLsbD b)) ∧
      (∀ j, j ≠ x → t.reg j = s.reg j) ∧ t.pc = s.pc + 2 ∧ ChangesOnly [.registers, .pc] s t)

/-- R127, R135: the flag `c` is 1 iff the sum exceeds 255; `V[X]` ends as the sum modulo 256 of the operands read AFTER the flag
was written to VF (decision D6, which matters when `X` or `Y` is VF only); VF ends as `c` unless `X` is VF. -/
def Obligations.AddWithCarry : Prop :=
  ∀ (x y : Reg) (s : State),
    let c : Nat := if (s.reg x).toNat + (s.reg y).toNat > 255 then 1 else 0
    ∃ t, exec (.addVxVy x y) s = .next t ∧
      (t.reg x).toNat = ((if x = 15 then c else (s.reg x).toNat) + (if y = 15 then c else (s.reg y).toNat)) % 256 ∧
      (x ≠ 15 → (t.reg 15).toNat = c) ∧ (∀ j, j ≠ x → j ≠ 15 → t.reg j = s.reg j) ∧ t.pc = s.pc + 2 ∧
      ChangesOnly [.registers, .pc] s t

/-- R128, R130, R135: the flag `c` is 1 iff the minuend is strictly greater (0 at equality); `V[X]` ends as the difference
modulo 256 of the operands read AFTER the flag was written to VF (decision D6); VF ends as `c` unless `X` is VF. -/
def Obligations.SubtractBothWays : Prop :=
  ∀ (x y : Reg) (s : State),
    (let c : Nat := if (s.reg x).toNat > (s.reg y).toNat then 1 else 0
     ∃ t, exec (.subVxVy x y) s = .next t ∧
      (t.reg x).toNat =
        ((if x = 15 then c else (s.reg x).toNat) + 256 - (if y = 15 then c else (s.reg y).toNat)) % 256 ∧
      (x ≠ 15 → (t.reg 15).toNat = c) ∧ (∀ j, j ≠ x → j ≠ 15 → t.reg j = s.reg j) ∧ t.pc = s.pc + 2 ∧
      ChangesOnly [.registers, .pc] s t) ∧
    (let c : Nat := if (s.reg y).toNat > (s.reg x).toNat then 1 else 0
     ∃ t, exec (.subnVxVy x y) s = .next t ∧
      (t.reg x).toNat =
        ((if y = 15 then c else (s.reg y).toNat) + 256 - (if x = 15 then c else (s.reg x).toNat)) % 256 ∧
      (x ≠ 15 → (t.reg 15).toNat = c) ∧ (∀ j, j ≠ x → j ≠ 15 → t.reg j = s.reg j) ∧ t.pc = s.pc + 2 ∧
      ChangesOnly [.registers, .pc] s t)

/-- R129, R131, R135: both shifts put the OLD BIT 0 in VF, then shift `V[X]` by one, whatever `Y` is; with `X` = VF the flag is
what is shifted (decision D6). -/
def Obligations.ShiftsByOne : Prop :=
  ∀ (x y : Reg) (s : State),
    let c : Nat := (s.reg x).toNat % 2
    (∃ t, exec (.shrVx x y) s = .next t ∧ (t.reg x).toNat = (if x = 15 then c else (s.reg x).toNat) / 2 ∧
      (x ≠ 15 → (t.reg 15).toNat = c) ∧ (∀ j, j ≠ x → j ≠ 15 → t.reg j = s.reg j) ∧ t.pc = s.pc + 2 ∧
      ChangesOnly [.registers, .pc] s t) ∧
    (∃ t, exec (.shlVx x y) s = .next t ∧ (t.reg x).toNat = (if x = 15 then c else (s.reg x).toNat) * 2 % 256 ∧
      (x ≠ 15 → (t.reg 15).toNat = c) ∧ (∀ j, j ≠ x → j ≠ 15 → t.reg j = s.reg j) ∧ t.pc = s.pc + 2 ∧
      ChangesOnly [.registers, .pc] s t)

/-- R133: `I` ends as the sum modulo 65536 (decision D7), with the old VF added when `X` is VF; then VF ends as 1 iff the new `I`
is above 0x0FFF, for every `X`. -/
def Obligations.AddRegisterToIndex : Prop :=
  ∀ (x : Reg) (s : State),
    ∃ t, exec (.addIVx x) s = .next t ∧ t.index.toNat = (s.index.toNat + (s.reg x).toNat) % 65536 ∧
      (t.reg 15).toNat = (if t.index.toNat > 0x0FFF then 1 else 0) ∧ (∀ j, j ≠ 15 → t.reg j = s.reg j) ∧
      t.pc = s.pc + 2 ∧ ChangesOnly [.registers, .index, .pc] s t

/-- R134: `V[X]` ends as the drawn byte AND `NN`, and exactly one byte is drawn. The byte is the free value `Config.draw` (decision
D15, log entry 3): nothing is known of it. -/
def Obligations.RandomByteIsMasked : Prop :=
  ∀ (x : Reg) (nn : Byte) (s : State),
    ∃ t, exec (.rndVxNn x nn) s = .next t ∧
      (∀ b, (t.reg x).getLsbD b = ((Config.draw s.draws).getLsbD b && nn.getLsbD b)) ∧
      t.draws = s.draws + 1 ∧ (∀ j, j ≠ x → t.reg j = s.reg j) ∧ t.pc = s.pc + 2 ∧
      ChangesOnly [.registers, .draws, .pc] s t

/-! ## Display and timers -/

/-- R150: every cell 0, `draw_ready` set, VF and everything else unchanged. -/
def Obligations.ClearScreen : Prop :=
  ∀ s : State, ∃ t, exec .cls s = .next t ∧ (∀ j, cell t.fb j = false) ∧ t.drawReady = true ∧ t.pc = s.pc + 2 ∧
    ChangesOnly [.screen, .drawReady, .pc] s t

/-- R151, R155: a draw that fits flips exactly the cells under the sprite's 1 bits (flat index, nothing wraps or clips; bit 7
leftmost, decision D13), sets VF to 1 iff one of them was 1 and to 0 otherwise, sets `draw_ready`; the coordinates are those
before VF is written, for `X` or `Y` = VF too (decision D25); `N = 0` always fits. -/
def Obligations.DrawFlipsTheSpriteCells : Prop :=
  ∀ (x y : Reg) (n : Nat) (s : State), DrawFits s x y n →
    ∃ t, exec (.drwVxVyN x y n) s = .next t ∧
      (∀ j, j < 2048 → (cell t.fb j = true ↔ Xor (cell s.fb j = true) (SpriteOn s x y n j))) ∧
      ((∃ j, cell s.fb j = true ∧ SpriteOn s x y n j) → t.reg 15 = 1) ∧
      ((¬ ∃ j, cell s.fb j = true ∧ SpriteOn s x y n j) → t.reg 15 = 0) ∧
      (∀ j, j ≠ 15 → t.reg j = s.reg j) ∧ t.drawReady = true ∧ t.pc = s.pc + 2 ∧
      ChangesOnly [.registers, .screen, .drawReady, .pc] s t

/-- R151 (decisions D10, D12): a draw of 1 to 15 rows whose bytes run past 4095 faults with MemoryOutOfRange, checked first; one
with a cell above 2047 faults with the largest index, whatever the sprite bits; nothing else changes. -/
def Obligations.DrawOutOfRangeFaults : Prop :=
  ∀ (x y : Reg) (n : Nat) (s : State), 0 < n → n ≤ 15 →
    (4095 < s.index.toNat + n - 1 →
      ∃ t, exec (.drwVxVyN x y n) s = .next t ∧ Latches s t .memoryOutOfRange (max s.index.toNat 4096)) ∧
    (s.index.toNat + n - 1 ≤ 4095 → 2047 < (s.reg x).toNat + 7 + ((s.reg y).toNat + n - 1) * 64 →
      ∃ t, exec (.drwVxVyN x y n) s = .next t ∧
        Latches s t .framebufferOutOfRange ((s.reg x).toNat + 7 + ((s.reg y).toNat + n - 1) * 64))

/-- The source's property S7 (95_test_vectors.md): a sprite with a 1 bit, drawn twice on cells that are 0, leaves the screen as
it was, with VF = 0 after the first draw and 1 after the second. `X` and `Y` are not VF, which the first draw overwrites. -/
def Obligations.DrawingTwiceRestoresTheScreen : Prop :=
  ∀ (x y : Reg) (n : Nat) (s : State), x ≠ 15 → y ≠ 15 → DrawFits s x y n → (∃ j, SpriteOn s x y n j) →
    (∀ j, SpriteOn s x y n j → cell s.fb j = false) →
    ∃ t u, exec (.drwVxVyN x y n) s = .next t ∧ exec (.drwVxVyN x y n) t = .next u ∧
      t.reg 15 = 0 ∧ u.reg 15 = 1 ∧ u.fb = s.fb ∧ t.drawReady = true ∧ u.drawReady = true

/-- R152, R153, R154: FX07 copies DT into `V[X]`, FX15 and FX18 copy `V[X]` into DT and ST; nothing else changes (the timer phase
of the cycle comes after: the next statement). -/
def Obligations.TimerReadAndSet : Prop :=
  ∀ (x : Reg) (s : State),
    (∃ t, exec (.ldVxDt x) s = .next t ∧ (∀ j, t.reg j = if j = x then s.dt else s.reg j) ∧ t.pc = s.pc + 2 ∧
      ChangesOnly [.registers, .pc] s t) ∧
    (∃ t, exec (.ldDtVx x) s = .next t ∧ t.dt = s.reg x ∧ t.pc = s.pc + 2 ∧ ChangesOnly [.delayTimer, .pc] s t) ∧
    (∃ t, exec (.ldStVx x) s = .next t ∧ t.st = s.reg x ∧ t.pc = s.pc + 2 ∧ ChangesOnly [.soundTimer, .pc] s t)

/-- R244: the timer phase follows in the same cycle. At the end of the cycle of an FX15, DT is `V[X]` less one, not below 0; of
an FX18, so is ST, and `buzz_ready` is raised when `V[X] = 1`, while writing 0 is no expiry; an FX07 reads the value before the
cycle's decrement. -/
def Obligations.TimerWritesLagByTheirOwnCycle : Prop :=
  ∀ (x : Reg) (s : State), s.Fetches →
    (decodeWord s.fetchWord = .ok (.ldDtVx x) → ∃ t, step s = .next t ∧ t.dt.toNat = (s.reg x).toNat - 1) ∧
    (decodeWord s.fetchWord = .ok (.ldStVx x) → ∃ t, step s = .next t ∧ t.st.toNat = (s.reg x).toNat - 1 ∧
      (s.reg x = 1 → t.buzzReady = true) ∧ (s.reg x ≠ 1 → t.buzzReady = s.buzzReady)) ∧
    (decodeWord s.fetchWord = .ok (.ldVxDt x) → ∃ t, step s = .next t ∧ t.reg x = s.dt ∧ t.dt.toNat = s.dt.toNat - 1)

/-! ## Keyboard and memory block -/

/-- R172: FX0A starts the wait for `X` and advances `pc` at once; it reads no key and writes no register. -/
def Obligations.KeyWaitBegins : Prop :=
  ∀ (x : Reg) (s : State), ∃ t, exec (.ldVxK x) s = .next t ∧ t.runState = .awaitingKey ∧ t.waitReg = x ∧
    t.pc = s.pc + 2 ∧ ChangesOnly [.waiting, .pc] s t

/-- R191, R223: a press while waiting writes the code to the remembered register and ends the wait, whatever the key's old
state (decision D23); a press while running changes no register; both mark the key as held and change nothing else. -/
def Obligations.KeyPressEndsTheWait : Prop :=
  ∀ (k : Key) (s : State),
    ∃ t, perform (.keyPress k) s = .next t ∧ t.runState = .running ∧ t.waitReg = s.waitReg ∧
      (∀ j, t.keyHeld j = if j = k.val then true else s.keyHeld j) ∧
      (s.runState = .awaitingKey → (t.reg s.waitReg).toNat = k.val ∧ ∀ j, j ≠ s.waitReg → t.reg j = s.reg j) ∧
      (s.runState = .running → ∀ j, t.reg j = s.reg j) ∧
      ChangesOnly [.registers, .keys, .waiting] s t

/-- R192: a release marks its key as not held and changes nothing else, whether or not the key was held. -/
def Obligations.KeyReleaseClearsItsKey : Prop :=
  ∀ (k : Key) (s : State), ∃ t, perform (.keyRelease k) s = .next t ∧
    (∀ j, t.keyHeld j = if j = k.val then false else s.keyHeld j) ∧ ChangesOnly [.keys] s t

/-- The key-wait round trip (95_test_vectors.md S10): the cycle that executes FX0A for `X`, any number of waiting cycles, then
a press of `k`: `V[X] = k`, RUNNING, and `pc` at the word after the FX0A. -/
def Obligations.KeyWaitRoundTrip : Prop :=
  ∀ (n : Nat) (k : Key) (x : Reg) (s : State), s.Fetches → decodeWord s.fetchWord = .ok (.ldVxK x) →
    ∃ t, performAll (List.replicate (n + 1) .step ++ [.keyPress k]) s = .next t ∧
      (t.reg x).toNat = k.val ∧ (∀ j, j ≠ x → t.reg j = s.reg j) ∧ t.runState = .running ∧ t.fault = false ∧
      t.pc = s.pc + 2

/-- R173: `I` ends as `V[X] * 5`, the value of `V[X]` not reduced to its low nibble; nothing else changes. The word is `FX29`. -/
def Obligations.FontAddress : Prop :=
  ∀ (x : Reg) (s : State), (encode (.ldFVx x)).toNat = 0xF029 + x.val * 256 ∧
    ∃ t, exec (.ldFVx x) s = .next t ∧ t.index.toNat = (s.reg x).toNat * 5 ∧ t.pc = s.pc + 2 ∧
      ChangesOnly [.index, .pc] s t

/-- R174: hundreds, tens and ones of `V[X]` at `I`, `I + 1`, `I + 2`; every other byte and everything else unchanged. -/
def Obligations.DecimalDigitsAreStored : Prop :=
  ∀ (x : Reg) (s : State), s.index.toNat + 2 ≤ 4095 →
    ∃ t, exec (.ldBVx x) s = .next t ∧
      (t.byteAt s.index.toNat).toNat = (s.reg x).toNat / 100 ∧
      (t.byteAt (s.index.toNat + 1)).toNat = (s.reg x).toNat / 10 % 10 ∧
      (t.byteAt (s.index.toNat + 2)).toNat = (s.reg x).toNat % 10 ∧
      (∀ a, a < s.index.toNat ∨ s.index.toNat + 2 < a → t.byteAt a = s.byteAt a) ∧
      t.pc = s.pc + 2 ∧ ChangesOnly [.memory, .pc] s t

/-- R175: `V[i]` at `I + i` for `i` from 0 to `X`; every other byte, `I` and everything else unchanged. -/
def Obligations.RegistersAreStored : Prop :=
  ∀ (x : Reg) (s : State), s.index.toNat + x.val ≤ 4095 →
    ∃ t, exec (.ldMemVx x) s = .next t ∧
      (∀ i : Reg, i.val ≤ x.val → t.byteAt (s.index.toNat + i.val) = s.reg i) ∧
      (∀ a, a < s.index.toNat ∨ s.index.toNat + x.val < a → t.byteAt a = s.byteAt a) ∧
      t.pc = s.pc + 2 ∧ ChangesOnly [.memory, .pc] s t

/-- R176: `V[i]` from `I + i` for `i` from 0 to `X`; the registers above `X`, memory, `I` and everything else unchanged. -/
def Obligations.RegistersAreLoaded : Prop :=
  ∀ (x : Reg) (s : State), s.index.toNat + x.val ≤ 4095 →
    ∃ t, exec (.ldVxMem x) s = .next t ∧
      (∀ i : Reg, i.val ≤ x.val → t.reg i = s.byteAt (s.index.toNat + i.val)) ∧
      (∀ i : Reg, x.val < i.val → t.reg i = s.reg i) ∧
      t.pc = s.pc + 2 ∧ ChangesOnly [.registers, .pc] s t

/-- A register dump followed by a register load gives the registers back, whatever the registers held in between (from R175
and R176). -/
def Obligations.DumpThenLoadGivesTheRegistersBack : Prop :=
  ∀ (x : Reg) (s : State) (between : Vector Byte 16), s.index.toNat + x.val ≤ 4095 →
    ∃ t u, exec (.ldMemVx x) s = .next t ∧ exec (.ldVxMem x) { t with v := between } = .next u ∧
      (∀ i : Reg, i.val ≤ x.val → u.reg i = s.reg i) ∧ (∀ i : Reg, x.val < i.val → u.reg i = between[i])

/-- R174, R175, R176 (decisions D10, D14): a block that runs past 4095 faults with the lowest address that does not exist, and no
byte and no register is written. -/
def Obligations.MemoryBlocksOutOfRangeFault : Prop :=
  ∀ (x : Reg) (s : State),
    (4095 < s.index.toNat + 2 →
      ∃ t, exec (.ldBVx x) s = .next t ∧ Latches s t .memoryOutOfRange (max s.index.toNat 4096)) ∧
    (4095 < s.index.toNat + x.val →
      (∃ t, exec (.ldMemVx x) s = .next t ∧ Latches s t .memoryOutOfRange (max s.index.toNat 4096)) ∧
      (∃ t, exec (.ldVxMem x) s = .next t ∧ Latches s t .memoryOutOfRange (max s.index.toNat 4096)))

/-- R54: a store is seen by the next fetch with nothing to be done. An FX55 with `X >= 1` that stores to the address after
itself leaves `V[0] ++ V[1]` as the next word fetched. -/
def Obligations.StoresAreSeenByTheNextFetch : Prop :=
  ∀ (x : Reg) (s : State), s.Fetches → decodeWord s.fetchWord = .ok (.ldMemVx x) → 1 ≤ x.val →
    s.index.toNat = s.pc.toNat + 2 → s.index.toNat + x.val ≤ 4095 →
    ∃ t, step s = .next t ∧ t.Fetches ∧ t.fetchWord.toNat = (s.reg 0).toNat * 256 + (s.reg 1).toNat

/-! ## The whole machine -/

/-- R17, R20: the screen and `draw_ready` change under 00E0 and DXYN only; `buzz_ready` under no instruction. -/
def Obligations.OnlyDrawingTouchesTheScreen : Prop :=
  ∀ (i : Instr) (s t : State), exec i s = .next t →
    t.buzzReady = s.buzzReady ∧
    (i ≠ .cls → (∀ x y n, i ≠ .drwVxVyN x y n) → t.fb = s.fb ∧ t.drawReady = s.drawReady)

/-- R14, R40: the stack changes under 2NNN and 00EE only, memory under FX33 and FX55 only. -/
def Obligations.OnlyTheirInstructionsTouchStackAndMemory : Prop :=
  ∀ (i : Instr) (s t : State), exec i s = .next t →
    ((∀ nnn, i ≠ .callNnn nnn) → i ≠ .ret → t.stack = s.stack) ∧
    ((∀ x, i ≠ .ldBVx x) → (∀ x, i ≠ .ldMemVx x) → t.mem = s.mem)

/-- R10, R11, R13: an instruction writes no register but those of `mayWrite`, so VF is written by its seven flag writers and by
an instruction whose destination it is; `I` is written by ANNN, FX1E and FX29 only. -/
def Obligations.OnlyTheirInstructionsTouchRegistersAndIndex : Prop :=
  ∀ (i : Instr) (s t : State), exec i s = .next t →
    (∀ j, mayWrite i j = false → t.reg j = s.reg j) ∧
    ((∀ nnn, i ≠ .ldINnn nnn) → (∀ x, i ≠ .addIVx x) → (∀ x, i ≠ .ldFVx x) → t.index = s.index)

/-- R18, R19, R21, R24: no instruction changes the keys or the parameters; DT is written by FX15 only, ST by FX18 only, the
waiting state by FX0A only. -/
def Obligations.OnlyTheirInstructionsTouchControlState : Prop :=
  ∀ (i : Instr) (s t : State), exec i s = .next t →
    t.key = s.key ∧ t.cfg = s.cfg ∧
    ((∀ x, i ≠ .ldDtVx x) → t.dt = s.dt) ∧ ((∀ x, i ≠ .ldStVx x) → t.st = s.st) ∧
    ((∀ x, i ≠ .ldVxK x) → t.runState = s.runState ∧ t.waitReg = s.waitReg)

/-- R18 (10_state.md, "Control and status state"): "`ST` ... can be read by no instruction". Two states that differ in ST only stay so under every instruction but FX18, which
makes them equal. -/
def Obligations.NoInstructionReadsTheSoundTimer : Prop :=
  ∀ (i : Instr) (a : Byte) (s t : State), exec i s = .next t →
    ((∀ x, i ≠ .ldStVx x) → exec i { s with st := a } = .next { t with st := a }) ∧
    (∀ x, i = .ldStVx x → exec i { s with st := a } = .next t)

/-- R8, R87, R134: the random source is drawn from by CXNN only: every other instruction does the same whatever the draw counter
is, and leaves it. The counter is the model's own field (log entry 3). -/
def Obligations.OnlyRndDrawsARandomByte : Prop :=
  ∀ (i : Instr) (k : Nat) (s t : State), (∀ x nn, i ≠ .rndVxNn x nn) → exec i s = .next t →
    t.draws = s.draws ∧ exec i { s with draws := k } = .next { t with draws := k }

/-- R210, R211 (decision D14): an instruction that meets a condition of `faultOf` latches exactly that cause and that
information and changes nothing else; one that meets none raises no fault; `status()` shows it (R198). `faultOf` is the fault table
but for one condition, which is the model's choice (log entry 21, DESIGN CHOICE): StackOverflow when `STACK_DEPTH <= sp`, where
the table says `sp = STACK_DEPTH`. The two agree in every state within R14's bound, so in every state of the invariant. -/
def Obligations.FaultsFollowTheTableAndArePrecise : Prop :=
  ∀ (i : Instr) (s t : State), i.wellFormed = true → exec i s = .next t →
    (∀ cause info, faultOf i s = some (cause, info) →
      Latches s t cause info ∧ (status t).fault = true ∧ (status t).faultCause = cause.code ∧ cause.code ≠ 0 ∧
        (status t).faultInfo.toNat = info) ∧
    (faultOf i s = none → t.fault = s.fault ∧ t.faultCause = s.faultCause ∧ t.faultInfo = s.faultInfo)

/-- R216 (decision D14): no host operation other than `reset()`, `step()` included, clears or changes a latched fault. -/
def Obligations.LatchedFaultIsSticky : Prop :=
  ∀ (op : HostOp) (s t : State), op ≠ .reset → s.fault = true → perform op s = .next t →
    t.fault = true ∧ t.faultCause = s.faultCause ∧ t.faultInfo = s.faultInfo

/-- Every step keeps the invariant: canonical memory inside [0, 4096), `sp` within STACK_DEPTH, `pc` at most 0x10FE and return
addresses at most 4096 (R12), the fault fields consistent (R210), never faulted and waiting together (R191). -/
def Obligations.EveryStepKeepsTheInvariant : Prop :=
  ∀ s t : State, s.Inv → step s = .next t → t.Inv

/-- The power-on state satisfies the invariant, whatever the parameters are. -/
def Obligations.PowerOnSatisfiesTheInvariant : Prop :=
  ∀ c : Config, State.Inv { State.reset with cfg := c }

/-- Every execution keeps the invariant: whatever the host does, in any order, from any state that satisfies it (R7, R190). -/
def Obligations.EveryExecutionKeepsTheInvariant : Prop :=
  ∀ (ops : List HostOp) (s : State), s.Inv → ∃ t, performAll ops s = .next t ∧ t.Inv ∧ t.cfg = s.cfg

/-! ## Reset and the host's operations -/

/-- R240, R241 (decisions D14, D17 for the fault latch and the waiting state, D18 for the keys at power-on): what `reset()` leaves and
what it does not touch, in any state; and power-on, with the default parameters (log entry 7), is such a state with no key held. -/
def Obligations.ResetLeavesItsValues : Prop :=
  (∀ s : State, ∃ t, perform .reset s = .next t ∧
    t.pc.toNat = 0x200 ∧ (∀ j, t.reg j = 0) ∧ t.index = 0 ∧ t.stack = [] ∧
    (∀ a, (h : a < 80) → t.byteAt a = s.cfg.font[a]) ∧ (∀ a, 80 ≤ a → a ≤ 4095 → t.byteAt a = 0) ∧
    (∀ j, cell t.fb j = false) ∧ t.dt = 0 ∧ t.st = 0 ∧ t.drawReady = false ∧ t.buzzReady = false ∧
    t.runState = .running ∧ t.waitReg = 0 ∧ t.fault = false ∧ t.faultCause = .none ∧ t.faultInfo = 0 ∧
    ChangesOnly [.registers, .index, .pc, .stack, .memory, .screen, .drawReady, .delayTimer, .soundTimer, .buzzReady,
      .waiting, .faultLatch] s t) ∧
  perform .reset State.reset = .next State.reset ∧ (∀ k, State.reset.keyHeld k = false) ∧
  State.reset.cfg = Config.default

/-- R195 (decision D19): an image of at most 3584 bytes is copied to 0x200 and up, and nothing else changes; a longer one is
refused as a whole. -/
def Obligations.LoadRomCopiesOrRefuses : Prop :=
  ∀ (image : List Byte) (s : State),
    (image.length ≤ 3584 → reply (.loadRom image) s = .loaded .accepted ∧
      ∃ t, perform (.loadRom image) s = .next t ∧
        (∀ i, (h : i < image.length) → t.byteAt (0x200 + i) = image[i]) ∧
        (∀ a, a < 0x200 ∨ 0x200 + image.length ≤ a → t.byteAt a = s.byteAt a) ∧ ChangesOnly [.memory] s t) ∧
    (3584 < image.length → reply (.loadRom image) s = .loaded .imageTooLarge ∧ perform (.loadRom image) s = .next s)

/-- R193, R194, R196: a take returns its flag and clears it, and changes nothing else; a framebuffer read returns its cell and
changes nothing. -/
def Obligations.TakesClearAndReadsDoNot : Prop :=
  ∀ s : State,
    (∃ t, perform .takeDrawReady s = .next t ∧ reply .takeDrawReady s = .bit s.drawReady ∧ t.drawReady = false ∧
      ChangesOnly [.drawReady] s t) ∧
    (∃ t, perform .takeBuzzReady s = .next t ∧ reply .takeBuzzReady s = .bit s.buzzReady ∧ t.buzzReady = false ∧
      ChangesOnly [.buzzReady] s t) ∧
    (∀ idx : Fin 2048, perform (.fbRead idx) s = .next s ∧ reply (.fbRead idx) s = .bit (cell s.fb idx.val))
end

