-- ==== Sys2Proof/Laws/Decode.lean ====
section
/-! SUPPORT. The fields of a packed word (spec/30_encoding.md R61, R62), the four masks of the opcode map as arithmetic, and the
shape of what the decoder answers. -/

namespace Sys2Proof

@[simp] theorem fieldF_packAddr (f : Nat) (a : Addr) (hf : f < 16) : fieldF (packAddr f a) = f := by
  have := a.isLt
  simp only [fieldF, bitField, packAddr, BitVec.toNat_ofNat]; omega

@[simp] theorem fieldNNN_packAddr (f : Nat) (a : Addr) : fieldNNN (packAddr f a) = a := by
  have := a.isLt
  apply BitVec.eq_of_toNat_eq
  simp only [fieldNNN, bitField, packAddr, BitVec.toNat_ofNat]; omega

@[simp] theorem fieldF_packRegByte (f : Nat) (x : Reg) (n : Nat) (hf : f < 16) (hn : n < 256) :
    fieldF (packRegByte f x n) = f := by
  have := x.isLt
  simp only [fieldF, bitField, packRegByte, BitVec.toNat_ofNat]; omega

@[simp] theorem fieldX_packRegByte (f : Nat) (x : Reg) (n : Nat) (hn : n < 256) : fieldX (packRegByte f x n) = x := by
  have := x.isLt
  apply Fin.ext
  simp only [fieldX, bitField, packRegByte, BitVec.toNat_ofNat, Fin.ofNat]; omega

@[simp] theorem lowByte_packRegByte (f : Nat) (x : Reg) (n : Nat) (hn : n < 256) :
    bitField (packRegByte f x n) 7 0 = n := by
  have := x.isLt
  simp only [bitField, packRegByte, BitVec.toNat_ofNat]; omega

@[simp] theorem fieldF_packRegImm (f : Nat) (x : Reg) (nn : Byte) (hf : f < 16) :
    fieldF (packRegByte f x nn.toNat) = f := fieldF_packRegByte f x nn.toNat hf nn.isLt

@[simp] theorem fieldX_packRegImm (f : Nat) (x : Reg) (nn : Byte) : fieldX (packRegByte f x nn.toNat) = x :=
  fieldX_packRegByte f x nn.toNat nn.isLt

@[simp] theorem fieldNN_packRegByte (f : Nat) (x : Reg) (nn : Byte) : fieldNN (packRegByte f x nn.toNat) = nn := by
  have := nn.isLt
  apply BitVec.eq_of_toNat_eq
  rw [fieldNN, lowByte_packRegByte _ _ _ this, BitVec.toNat_ofNat]; omega

@[simp] theorem fieldF_packRegReg (f : Nat) (x y : Reg) (n : Nat) (hf : f < 16) (hn : n ≤ 15) :
    fieldF (packRegReg f x y n) = f := by
  have := x.isLt; have := y.isLt
  simp only [fieldF, bitField, packRegReg, BitVec.toNat_ofNat]; omega

@[simp] theorem fieldX_packRegReg (f : Nat) (x y : Reg) (n : Nat) (hn : n ≤ 15) : fieldX (packRegReg f x y n) = x := by
  have := x.isLt; have := y.isLt
  apply Fin.ext
  simp only [fieldX, bitField, packRegReg, BitVec.toNat_ofNat, Fin.ofNat]; omega

@[simp] theorem fieldY_packRegReg (f : Nat) (x y : Reg) (n : Nat) (hn : n ≤ 15) : fieldY (packRegReg f x y n) = y := by
  have := x.isLt; have := y.isLt
  apply Fin.ext
  simp only [fieldY, bitField, packRegReg, BitVec.toNat_ofNat, Fin.ofNat]; omega

@[simp] theorem fieldN_packRegReg (f : Nat) (x y : Reg) (n : Nat) (hn : n ≤ 15) : fieldN (packRegReg f x y n) = n := by
  have := x.isLt; have := y.isLt
  simp only [fieldN, bitField, packRegReg, BitVec.toNat_ofNat]; omega

/-! ## A word is its fields -/

theorem word_eq_addr (w : Word) : w.toNat = fieldF w * 4096 + (fieldNNN w).toNat := by
  have := w.isLt
  simp only [fieldF, fieldNNN, bitField, BitVec.toNat_ofNat]; omega

theorem word_eq_regByte (w : Word) : w.toNat = fieldF w * 4096 + (fieldX w).val * 256 + bitField w 7 0 := by
  have := w.isLt
  simp only [fieldF, fieldX, bitField, Fin.ofNat]; omega

theorem word_eq_regReg (w : Word) :
    w.toNat = fieldF w * 4096 + (fieldX w).val * 256 + (fieldY w).val * 16 + fieldN w := by
  have := w.isLt
  simp only [fieldF, fieldX, fieldY, fieldN, bitField, Fin.ofNat]; omega

theorem fieldNN_toNat (w : Word) : (fieldNN w).toNat = bitField w 7 0 := by
  have := w.isLt
  simp only [fieldNN, bitField, BitVec.toNat_ofNat]; omega

theorem fieldN_le (w : Word) : fieldN w ≤ 15 := by simp only [fieldN, bitField]; omega

theorem fieldF_lt (w : Word) : fieldF w < 16 := by
  have := w.isLt
  simp only [fieldF, bitField]; omega

/-- The bytes of an encoded word put together again are the word (R41). -/
theorem wordOfBytes_split (w : Word) :
    wordOfBytes (BitVec.ofNat 8 (w.toNat / 256)) (BitVec.ofNat 8 w.toNat) = w := by
  have := w.isLt
  apply BitVec.eq_of_toNat_eq
  simp only [wordOfBytes, BitVec.toNat_ofNat]; omega

/-! ## Masks -/

theorem testBit_div_mod (n i : Nat) : n.testBit i = decide (n / 2 ^ i % 2 = 1) := Nat.testBit_eq_decide_div_mod_eq

/-- `w AND 0xF000` keeps the family. -/
theorem and_F000 (w : Word) : (w &&& 0xF000#16).toNat = w.toNat / 4096 * 4096 := by
  have hw := w.isLt
  apply Nat.eq_of_testBit_eq
  intro i
  rw [BitVec.toNat_and, Nat.testBit_and]
  by_cases hi : i < 16
  · interval_cases i <;> simp only [testBit_div_mod, BitVec.toNat_ofNat] <;> norm_num <;> omega
  · rw [Nat.testBit_lt_two_pow (x := w.toNat) (lt_of_lt_of_le hw (Nat.pow_le_pow_right (by omega) (by omega))),
      Nat.testBit_lt_two_pow (lt_of_lt_of_le (by omega : w.toNat / 4096 * 4096 < 2 ^ 16)
        (Nat.pow_le_pow_right (by omega) (by omega)))]
    rfl

/-- `w AND 0xF00F` keeps the family and the low nibble. -/
theorem and_F00F (w : Word) : (w &&& 0xF00F#16).toNat = w.toNat / 4096 * 4096 + w.toNat % 16 := by
  have hw := w.isLt
  apply Nat.eq_of_testBit_eq
  intro i
  rw [BitVec.toNat_and, Nat.testBit_and]
  by_cases hi : i < 16
  · interval_cases i <;> simp only [testBit_div_mod, BitVec.toNat_ofNat] <;> norm_num <;> omega
  · rw [Nat.testBit_lt_two_pow (x := w.toNat) (lt_of_lt_of_le hw (Nat.pow_le_pow_right (by omega) (by omega))),
      Nat.testBit_lt_two_pow (lt_of_lt_of_le (by omega : w.toNat / 4096 * 4096 + w.toNat % 16 < 2 ^ 16)
        (Nat.pow_le_pow_right (by omega) (by omega)))]
    rfl

/-- `w AND 0xF0FF` keeps the family and the low byte. -/
theorem and_F0FF (w : Word) : (w &&& 0xF0FF#16).toNat = w.toNat / 4096 * 4096 + w.toNat % 256 := by
  have hw := w.isLt
  apply Nat.eq_of_testBit_eq
  intro i
  rw [BitVec.toNat_and, Nat.testBit_and]
  by_cases hi : i < 16
  · interval_cases i <;> simp only [testBit_div_mod, BitVec.toNat_ofNat] <;> norm_num <;> omega
  · rw [Nat.testBit_lt_two_pow (x := w.toNat) (lt_of_lt_of_le hw (Nat.pow_le_pow_right (by omega) (by omega))),
      Nat.testBit_lt_two_pow (lt_of_lt_of_le (by omega : w.toNat / 4096 * 4096 + w.toNat % 256 < 2 ^ 16)
        (Nat.pow_le_pow_right (by omega) (by omega)))]
    rfl

/-- `w AND 0xFFFF` is `w`. -/
theorem and_FFFF (w : Word) : w &&& 0xFFFF#16 = w := by
  have : (0xFFFF#16) = BitVec.allOnes 16 := by decide
  rw [this, BitVec.and_allOnes]

/-! ## Matching a row, as arithmetic -/

theorem matches_F000 (p w : Word) :
    (OpcodeRow.mk p 0xF000).matches w = true ↔ w.toNat / 4096 * 4096 = p.toNat := by
  change (w &&& 0xF000#16 == p) = true ↔ _
  rw [beq_iff_eq, ← BitVec.toNat_inj, and_F000]

theorem matches_F00F (p w : Word) :
    (OpcodeRow.mk p 0xF00F).matches w = true ↔ w.toNat / 4096 * 4096 + w.toNat % 16 = p.toNat := by
  change (w &&& 0xF00F#16 == p) = true ↔ _
  rw [beq_iff_eq, ← BitVec.toNat_inj, and_F00F]

theorem matches_F0FF (p w : Word) :
    (OpcodeRow.mk p 0xF0FF).matches w = true ↔ w.toNat / 4096 * 4096 + w.toNat % 256 = p.toNat := by
  change (w &&& 0xF0FF#16 == p) = true ↔ _
  rw [beq_iff_eq, ← BitVec.toNat_inj, and_F0FF]

theorem matches_FFFF (p w : Word) : (OpcodeRow.mk p 0xFFFF).matches w = true ↔ w = p := by
  change (w &&& 0xFFFF#16 == p) = true ↔ _
  rw [beq_iff_eq, and_FFFF]

end Sys2Proof
end

