-- ==== Sys2Proof/Laws/Framebuffer.lean ====
section
/-! SUPPORT. The framebuffer: cells after a flip, and what drawing pixels, rows and sprites does to every cell and to the collision
flag (spec/43_display_timers.md R151, R155). -/

namespace Sys2Proof.Machine

@[simp] theorem cell_blankScreen (j : Nat) : cell blankScreen j = false := by
  unfold cell blankScreen; split_ifs <;> simp

theorem cell_of_ge (f : Framebuffer) (j : Nat) (h : 2048 ≤ j) : cell f j = false := by
  unfold cell; rw [dif_neg (by omega)]

/-- A flip changes its own cell and no other (R48). -/
theorem cell_flipCell (f : Framebuffer) (i j : Nat) :
    cell (flipCell f i) j = (cell f j ^^ decide (j = i ∧ i < 2048)) := by
  by_cases hi : i < 2048
  · by_cases hj : j < 2048
    · by_cases hr : i / 64 = j / 64
      · have hm : j % 64 < 64 := Nat.mod_lt _ (by omega)
        by_cases hc : i % 64 = j % 64
        · have : j = i := by omega
          subst this
          simp [cell, flipCell, hi, hm]
        · have : j ≠ i := fun e => hc (by rw [e])
          simp [cell, flipCell, hi, hj, hr, BitVec.getLsbD_twoPow, hc, this]
      · have : j ≠ i := fun e => hr (by rw [e])
        simp [cell, flipCell, hi, hj, Vector.getElem_set_ne, hr, this]
    · have : j ≠ i := fun e => hj (e ▸ hi)
      simp [cell_of_ge _ j (by omega), this]
  · simp [flipCell, hi]

/-- Two screens whose cells agree are equal. -/
theorem screen_ext {f g : Framebuffer} (h : ∀ j < 2048, cell f j = cell g j) : f = g := by
  apply Vector.ext
  intro r hr
  apply BitVec.eq_of_getLsbD_eq
  intro c hc
  have := h (r * 64 + c) (by omega)
  have h1 : (r * 64 + c) / 64 = r := by omega
  have h2 : (r * 64 + c) % 64 = c := by omega
  have h3 : r * 64 + c < 2048 := by omega
  simpa [cell, h1, h2, h3] using this

theorem plot_cell (p : Framebuffer × Bool) (idx j : Nat) (bit : Bool) (h : idx < 2048) :
    cell (plot p idx bit).1 j = (cell p.1 j ^^ (bit && decide (j = idx))) := by
  cases bit <;> simp [plot, cell_flipCell, h]

theorem plot_hit (p : Framebuffer × Bool) (idx : Nat) (bit : Bool) :
    (plot p idx bit).2 = (p.2 || (bit && cell p.1 idx)) := by
  cases bit <;> simp [plot]

/-- Whether a row byte whose column 0 is at `start` has a 1 bit on cell `j`. -/
def rowCovers (start : Nat) (b : Byte) (j : Nat) : Bool :=
  decide (start ≤ j ∧ j < start + 8) && rowPixel b (j - start)

/-- Whether a sprite whose first row starts at `start` has a 1 bit on cell `j`. -/
def spriteCovers : List Byte → Nat → Nat → Bool
  | [], _, _ => false
  | b :: rows, start, j => rowCovers start b j || spriteCovers rows (start + 64) j

theorem plotRow_aux (start : Nat) (b : Byte) (p : Framebuffer × Bool) (n : Nat) (h : start + n ≤ 2048) :
    let q := (List.range n).foldl (fun p col => plot p (start + col) (rowPixel b col)) p
    (∀ j, cell q.1 j = (cell p.1 j ^^ (decide (start ≤ j ∧ j < start + n) && rowPixel b (j - start)))) ∧
    (q.2 = true ↔ p.2 = true ∨ ∃ j, cell p.1 j = true ∧ (start ≤ j ∧ j < start + n) ∧ rowPixel b (j - start) = true) := by
  induction n with
  | zero =>
    refine ⟨fun j => ?_, ?_⟩
    · have : ¬ (start ≤ j ∧ j < start + 0) := by omega
      rw [decide_eq_false this]; simp
    · constructor
      · exact fun h => .inl h
      · rintro (h | ⟨j, -, hj, -⟩)
        · exact h
        · omega
  | succ n ih =>
    obtain ⟨ihc, ihh⟩ := ih (by omega)
    rw [List.range_succ, List.foldl_append]
    simp only [List.foldl_cons, List.foldl_nil]
    refine ⟨fun j => ?_, ?_⟩
    · rw [plot_cell _ _ _ _ (by omega), ihc j]
      by_cases hj : j = start + n
      · subst hj
        have : ¬ (start ≤ start + n ∧ start + n < start + n) := by omega
        simp
      · have : (start ≤ j ∧ j < start + (n + 1)) ↔ (start ≤ j ∧ j < start + n) := by omega
        simp [hj, this]
    · rw [plot_hit, Bool.or_eq_true, ihh, Bool.and_eq_true, ihc]
      have hn : ¬ (start ≤ start + n ∧ start + n < start + n) := by omega
      constructor
      · rintro ((h | ⟨j, h1, h2, h3⟩) | ⟨h1, h2⟩)
        · exact .inl h
        · exact .inr ⟨j, h1, by omega, h3⟩
        · refine .inr ⟨start + n, by simpa using h2, by omega, by simpa using h1⟩
      · rintro (h | ⟨j, h1, h2, h3⟩)
        · exact .inl (.inl h)
        · by_cases hj : j = start + n
          · subst hj
            exact .inr ⟨by simpa using h3, by simpa using h1⟩
          · exact .inl (.inr ⟨j, h1, by omega, h3⟩)

/-- Drawing a row that fits the screen: each cell under a 1 bit flips, the others stay, and the flag is set when one of them
was 1. -/
theorem plotRow_spec (start : Nat) (b : Byte) (p : Framebuffer × Bool) (h : start + 8 ≤ 2048) :
    (∀ j, cell (plotRow start b p).1 j = (cell p.1 j ^^ rowCovers start b j)) ∧
    ((plotRow start b p).2 = true ↔ p.2 = true ∨ ∃ j, cell p.1 j = true ∧ rowCovers start b j = true) := by
  have := plotRow_aux start b p 8 h
  simpa [plotRow, rowCovers] using this

theorem spriteCovers_bounds {rows : List Byte} {start j : Nat} (h : spriteCovers rows start j = true) : start ≤ j := by
  induction rows generalizing start with
  | nil => simp [spriteCovers] at h
  | cons b rows ih =>
    simp only [spriteCovers, Bool.or_eq_true, rowCovers, Bool.and_eq_true, decide_eq_true_eq] at h
    rcases h with h | h
    · omega
    · have := ih h; omega

/-- Drawing a sprite all of whose rows fit the screen. The rows do not overlap, so each cell flips at most once. -/
theorem plotRows_spec (rows : List Byte) (start : Nat) (p : Framebuffer × Bool)
    (h : rows ≠ [] → start + (rows.length - 1) * 64 + 8 ≤ 2048) :
    (∀ j, cell (plotRows rows start p).1 j = (cell p.1 j ^^ spriteCovers rows start j)) ∧
    ((plotRows rows start p).2 = true ↔ p.2 = true ∨ ∃ j, cell p.1 j = true ∧ spriteCovers rows start j = true) := by
  induction rows generalizing start p with
  | nil => simp [plotRows, spriteCovers]
  | cons b rows ih =>
    have hb := h (by simp)
    simp only [List.length_cons, Nat.add_sub_cancel] at hb
    obtain ⟨rc, rh⟩ := plotRow_spec start b p (by omega)
    obtain ⟨ic, ihh⟩ := ih (start + 64) (plotRow start b p) (fun hne => by
      have : 0 < rows.length := List.length_pos_iff.mpr hne
      omega)
    have disjoint : ∀ j, rowCovers start b j = true → spriteCovers rows (start + 64) j = false := by
      intro j hj
      cases hs : spriteCovers rows (start + 64) j with
      | false => rfl
      | true =>
        have := spriteCovers_bounds hs
        simp only [rowCovers, Bool.and_eq_true, decide_eq_true_eq] at hj
        omega
    refine ⟨fun j => ?_, ?_⟩
    · rw [plotRows, ic, rc, spriteCovers]
      cases hr : rowCovers start b j with
      | false => simp
      | true => simp [disjoint j hr]
    · rw [plotRows, ihh, rh]
      constructor
      · rintro ((h | ⟨j, h1, h2⟩) | ⟨j, h1, h2⟩)
        · exact .inl h
        · exact .inr ⟨j, h1, by simp [spriteCovers, h2]⟩
        · have hr : rowCovers start b j = false := by
            cases hr : rowCovers start b j with
            | false => rfl
            | true => rw [disjoint j hr] at h2; exact absurd h2 (by simp)
          exact .inr ⟨j, by simpa [rc, hr] using h1, by simp [spriteCovers, h2]⟩
      · rintro (h | ⟨j, h1, h2⟩)
        · exact .inl (.inl h)
        · cases hr : rowCovers start b j with
          | true => exact .inl (.inr ⟨j, h1, hr⟩)
          | false =>
            refine .inr ⟨j, by simp [rc, hr, h1], ?_⟩
            simpa [spriteCovers, hr] using h2

/-- A sprite covers a cell when one of its rows has a 1 bit at the column that the flat index of R155 puts there. -/
theorem spriteCovers_iff (rows : List Byte) (start j : Nat) :
    spriteCovers rows start j = true ↔
      ∃ row, ∃ h : row < rows.length, ∃ col < 8, j = start + col + row * 64 ∧ rowPixel rows[row] col = true := by
  induction rows generalizing start with
  | nil => simp [spriteCovers]
  | cons b rows ih =>
    rw [spriteCovers, Bool.or_eq_true, ih, rowCovers, Bool.and_eq_true, decide_eq_true_eq]
    constructor
    · rintro (⟨h1, h2⟩ | ⟨row, hr, col, hc, hj, hp⟩)
      · exact ⟨0, by simp, j - start, by omega, by omega, h2⟩
      · exact ⟨row + 1, by simp [hr], col, hc, by omega, by simpa using hp⟩
    · rintro ⟨row, hr, col, hc, hj, hp⟩
      cases row with
      | zero =>
        left
        have : j - start = col := by omega
        exact ⟨by omega, by rw [this]; exact hp⟩
      | succ row => exact .inr ⟨row, by simpa using hr, col, hc, by omega, by simpa using hp⟩

end Sys2Proof.Machine
end

