-- ==== Sys2Proof/Laws/Memory.lean ====
section
/-! SUPPORT. Memory: reading after writing, the canonical form, and equality of canonical memories. -/

namespace Sys2Proof.Machine

theorem Memory.lookup_put (m : Memory) (a j : Nat) (b : Byte) :
    (m.put a b).lookup j = if j = a then some b else m.lookup j := by
  induction m with
  | nil => simp only [Memory.put, Memory.lookup, eq_comm]
  | cons p m ih =>
    obtain ⟨k, c⟩ := p
    simp only [Memory.put]
    by_cases h1 : a < k
    · rw [if_pos h1, Memory.lookup]; simp only [eq_comm]
    · rw [if_neg h1]
      by_cases h2 : a = k
      · subst h2; rw [if_pos rfl]; by_cases h3 : j = a <;> simp [Memory.lookup, h3, Ne.symm]
      · rw [if_neg h2]
        by_cases h3 : k = j
        · have h4 : ¬ j = a := fun e => h2 (e ▸ h3.symm)
          simp [Memory.lookup, h3, h4]
        · simp [Memory.lookup, h3, ih]

theorem Memory.lookup_drop (m : Memory) (a j : Nat) :
    (m.drop a).lookup j = if j = a then none else m.lookup j := by
  induction m with
  | nil => simp [Memory.drop, Memory.lookup]
  | cons p m ih =>
    obtain ⟨k, c⟩ := p
    unfold Memory.drop at ih ⊢
    by_cases h : k = a
    · subst h; simp only [List.filter, bne_self_eq_false, ih, Memory.lookup]; split_ifs <;> simp_all
    · simp only [List.filter, bne_iff_ne.mpr h, Memory.lookup, ih]; split_ifs <;> simp_all

/-- Reading after a write: the byte written at its address, the old byte everywhere else (R45, R51). -/
theorem Memory.read_write (c : Config) (m : Memory) (a j : Nat) (b : Byte) :
    (m.write c a b).read c j = if j = a ∧ a < 4096 then b else m.read c j := by
  unfold Memory.write Memory.read
  split_ifs with h1 h2 h3 h3 h3 <;> simp_all [Memory.lookup_put, Memory.lookup_drop]

theorem Memory.read_write_self (c : Config) (m : Memory) (a : Nat) (b : Byte) (h : a < 4096) :
    (m.write c a b).read c a = b := by simp [Memory.read_write, h]

theorem Memory.read_write_other (c : Config) (m : Memory) (a j : Nat) (b : Byte) (h : j ≠ a) :
    (m.write c a b).read c j = m.read c j := by simp [Memory.read_write, h]

/-- Reading after a block write: the block's bytes inside it, the old bytes outside it (R42). -/
theorem Memory.read_writeBytes (c : Config) (m : Memory) (a j : Nat) (bytes : List Byte)
    (hfit : a + bytes.length ≤ 4096) :
    (m.writeBytes c a bytes).read c j =
      if h : a ≤ j ∧ j < a + bytes.length then bytes[j - a] else m.read c j := by
  induction bytes generalizing m a with
  | nil =>
    have : ¬ (a ≤ j ∧ j < a) := by omega
    simp [Memory.writeBytes, this]
  | cons b bs ih =>
    simp only [List.length_cons] at hfit ⊢
    rw [Memory.writeBytes, ih _ _ (by omega), Memory.read_write]
    by_cases h1 : j = a
    · subst h1
      have : ¬ (j + 1 ≤ j ∧ j < j + 1 + bs.length) := by omega
      have hj : j < 4096 := by omega
      simp [hj]
    · by_cases h2 : a ≤ j ∧ j < a + (bs.length + 1)
      · have h3 : a + 1 ≤ j ∧ j < a + 1 + bs.length := by omega
        have h4 : j - a = (j - (a + 1)) + 1 := by omega
        rw [dif_pos h3, dif_pos h2]
        simp [h4]
      · have h3 : ¬ (a + 1 ≤ j ∧ j < a + 1 + bs.length) := by omega
        rw [dif_neg h3, dif_neg h2, if_neg (by simp [h1])]

/-! ## The canonical form is kept -/

theorem Memory.mem_put {m : Memory} {a : Nat} {b : Byte} {p : Host.Cell} (h : p ∈ m.put a b) : p = (a, b) ∨ p ∈ m := by
  induction m with
  | nil => simpa [Memory.put] using h
  | cons q m ih =>
    obtain ⟨k, c⟩ := q
    simp only [Memory.put] at h
    split_ifs at h <;> simp only [List.mem_cons] at h ⊢ <;> tauto

theorem Memory.put_sorted {m : Memory} (a : Nat) (b : Byte) (h : m.Pairwise (fun p q => p.1 < q.1)) :
    (m.put a b).Pairwise (fun p q => p.1 < q.1) := by
  induction m with
  | nil => simp [Memory.put]
  | cons q m ih =>
    obtain ⟨k, c⟩ := q
    obtain ⟨hk, hm⟩ := List.pairwise_cons.mp h
    simp only [Memory.put]
    split_ifs with h1 h2
    · refine List.pairwise_cons.mpr ⟨fun p hp => ?_, h⟩
      rcases List.mem_cons.mp hp with rfl | hp
      · exact h1
      · exact lt_trans h1 (hk p hp)
    · subst h2; exact List.pairwise_cons.mpr ⟨hk, hm⟩
    · refine List.pairwise_cons.mpr ⟨fun p hp => ?_, ih hm⟩
      rcases Memory.mem_put hp with rfl | hp
      · simp only; omega
      · exact hk p hp

/-- Every write keeps the canonical form. -/
theorem Memory.write_wf {c : Config} {m : Memory} (a : Nat) (b : Byte) (h : m.wf c) : (m.write c a b).wf c := by
  obtain ⟨hs, hc⟩ := h
  unfold Memory.write
  split_ifs with h1 h2
  · exact ⟨hs.filter _, fun p hp => hc p (List.mem_filter.mp hp).1⟩
  · refine ⟨Memory.put_sorted a b hs, fun p hp => ?_⟩
    rcases Memory.mem_put hp with rfl | hp
    · exact ⟨h1, h2⟩
    · exact hc p hp
  · exact ⟨hs, hc⟩

theorem Memory.writeBytes_wf {c : Config} {m : Memory} (a : Nat) (bytes : List Byte) (h : m.wf c) :
    (m.writeBytes c a bytes).wf c := by
  induction bytes generalizing m a with
  | nil => exact h
  | cons b bs ih => exact ih _ (Memory.write_wf a b h)

theorem Memory.wf_nil (c : Config) : Memory.wf c [] := ⟨List.Pairwise.nil, by simp⟩

theorem State.reset_memory_wf : State.reset.mem.wf State.reset.cfg := Memory.wf_nil _

/-! ## Canonical memories that read alike are equal -/

theorem Memory.lookup_none_of_lt {m : Memory} {a : Nat} (h : ∀ p ∈ m, a < p.1) : m.lookup a = none := by
  induction m with
  | nil => rfl
  | cons p m ih =>
    obtain ⟨k, c⟩ := p
    have hk : a < k := h (k, c) (by simp)
    rw [Memory.lookup, if_neg (by omega), ih fun p hp => h p (by simp [hp])]

theorem Memory.eq_of_lookup {m n : Memory} (hm : m.Pairwise (fun p q => p.1 < q.1)) (hn : n.Pairwise (fun p q => p.1 < q.1))
    (h : ∀ a, m.lookup a = n.lookup a) : m = n := by
  induction m generalizing n with
  | nil =>
    cases n with
    | nil => rfl
    | cons q n => have := h q.1; simp [Memory.lookup] at this
  | cons p m ih =>
    obtain ⟨hpm, hm'⟩ := List.pairwise_cons.mp hm
    cases n with
    | nil => have := h p.1; simp [Memory.lookup] at this
    | cons q n =>
      obtain ⟨hqn, hn'⟩ := List.pairwise_cons.mp hn
      obtain ⟨k, b⟩ := p
      obtain ⟨l, d⟩ := q
      have hkl : k = l := by
        by_contra hne
        rcases Nat.lt_or_gt_of_ne hne with hlt | hlt
        · have h1 := h k
          rw [Memory.lookup, if_pos rfl, Memory.lookup, if_neg (by omega),
            Memory.lookup_none_of_lt fun p hp => lt_trans hlt (hqn p hp)] at h1
          exact absurd h1 (by simp)
        · have h1 := h l
          rw [Memory.lookup, if_neg (by omega), Memory.lookup_none_of_lt fun p hp => lt_trans hlt (hpm p hp),
            Memory.lookup, if_pos rfl] at h1
          exact absurd h1 (by simp)
      subst hkl
      have hb : b = d := by have := h k; simpa [Memory.lookup] using this
      subst hb
      rw [ih hm' hn' fun a => ?_]
      by_cases ha : k = a
      · subst ha
        rw [Memory.lookup_none_of_lt hpm, Memory.lookup_none_of_lt hqn]
      · have := h a
        simpa [Memory.lookup, ha] using this

theorem Memory.lookup_mem {m : Memory} {a : Nat} {b : Byte} (h : m.lookup a = some b) : (a, b) ∈ m := by
  induction m with
  | nil => simp [Memory.lookup] at h
  | cons p m ih =>
    obtain ⟨k, c⟩ := p
    rw [Memory.lookup] at h
    split_ifs at h with hk
    · subst hk; simp at h; simp [h]
    · exact List.mem_cons_of_mem _ (ih h)

/-- Equal memories are equal data: canonical memories that read alike are one list. -/
theorem Memory.eq_of_read {c : Config} {m n : Memory} (hm : m.wf c) (hn : n.wf c)
    (h : ∀ a, m.read c a = n.read c a) : m = n := by
  refine Memory.eq_of_lookup hm.1 hn.1 fun a => ?_
  have ha := h a
  unfold Memory.read at ha
  cases e1 : m.lookup a with
  | none =>
    cases e2 : n.lookup a with
    | none => rfl
    | some b => rw [e1, e2] at ha; exact absurd ha.symm (hn.2 _ (Memory.lookup_mem e2)).2
  | some b =>
    cases e2 : n.lookup a with
    | none => rw [e1, e2] at ha; exact absurd ha (hm.2 _ (Memory.lookup_mem e1)).2
    | some d => rw [e1, e2] at ha; simpa using ha

/-- The bytes of a state after a block store that fits (R42, R46). -/
theorem State.byteAt_storeBytes (s : State) (a j : Nat) (bytes : List Byte) (hfit : a + bytes.length ≤ 4096) :
    (s.storeBytes a bytes).byteAt j =
      if h : a ≤ j ∧ j < a + bytes.length then bytes[j - a] else s.byteAt j :=
  Memory.read_writeBytes s.cfg s.mem a j bytes hfit

end Sys2Proof.Machine
end

