-- ==== Sys2Proof/Laws/State.lean ====
section
/-! SUPPORT. What each update of the state does to each field: one lemma a field, true by `rfl`, so that no proof unfolds a record
update. -/

namespace Sys2Proof.Machine

variable (s : State)

/-! ## `State.setReg` -/

@[simp] theorem State.setReg_cfg (x : Reg) (b : Byte) :
    (s.setReg x b).cfg = s.cfg := rfl
@[simp] theorem State.setReg_v (x : Reg) (b : Byte) :
    (s.setReg x b).v = s.v.set x.val b x.isLt := rfl
@[simp] theorem State.setReg_index (x : Reg) (b : Byte) :
    (s.setReg x b).index = s.index := rfl
@[simp] theorem State.setReg_pc (x : Reg) (b : Byte) :
    (s.setReg x b).pc = s.pc := rfl
@[simp] theorem State.setReg_stack (x : Reg) (b : Byte) :
    (s.setReg x b).stack = s.stack := rfl
@[simp] theorem State.setReg_mem (x : Reg) (b : Byte) :
    (s.setReg x b).mem = s.mem := rfl
@[simp] theorem State.setReg_fb (x : Reg) (b : Byte) :
    (s.setReg x b).fb = s.fb := rfl
@[simp] theorem State.setReg_dt (x : Reg) (b : Byte) :
    (s.setReg x b).dt = s.dt := rfl
@[simp] theorem State.setReg_st (x : Reg) (b : Byte) :
    (s.setReg x b).st = s.st := rfl
@[simp] theorem State.setReg_key (x : Reg) (b : Byte) :
    (s.setReg x b).key = s.key := rfl
@[simp] theorem State.setReg_drawReady (x : Reg) (b : Byte) :
    (s.setReg x b).drawReady = s.drawReady := rfl
@[simp] theorem State.setReg_buzzReady (x : Reg) (b : Byte) :
    (s.setReg x b).buzzReady = s.buzzReady := rfl
@[simp] theorem State.setReg_runState (x : Reg) (b : Byte) :
    (s.setReg x b).runState = s.runState := rfl
@[simp] theorem State.setReg_waitReg (x : Reg) (b : Byte) :
    (s.setReg x b).waitReg = s.waitReg := rfl
@[simp] theorem State.setReg_fault (x : Reg) (b : Byte) :
    (s.setReg x b).fault = s.fault := rfl
@[simp] theorem State.setReg_faultCause (x : Reg) (b : Byte) :
    (s.setReg x b).faultCause = s.faultCause := rfl
@[simp] theorem State.setReg_faultInfo (x : Reg) (b : Byte) :
    (s.setReg x b).faultInfo = s.faultInfo := rfl
@[simp] theorem State.setReg_draws (x : Reg) (b : Byte) :
    (s.setReg x b).draws = s.draws := rfl

/-! ## `State.advance` -/

@[simp] theorem State.advance_cfg (k : Word) :
    (s.advance k).cfg = s.cfg := rfl
@[simp] theorem State.advance_v (k : Word) :
    (s.advance k).v = s.v := rfl
@[simp] theorem State.advance_index (k : Word) :
    (s.advance k).index = s.index := rfl
@[simp] theorem State.advance_pc (k : Word) :
    (s.advance k).pc = s.pc + k := rfl
@[simp] theorem State.advance_stack (k : Word) :
    (s.advance k).stack = s.stack := rfl
@[simp] theorem State.advance_mem (k : Word) :
    (s.advance k).mem = s.mem := rfl
@[simp] theorem State.advance_fb (k : Word) :
    (s.advance k).fb = s.fb := rfl
@[simp] theorem State.advance_dt (k : Word) :
    (s.advance k).dt = s.dt := rfl
@[simp] theorem State.advance_st (k : Word) :
    (s.advance k).st = s.st := rfl
@[simp] theorem State.advance_key (k : Word) :
    (s.advance k).key = s.key := rfl
@[simp] theorem State.advance_drawReady (k : Word) :
    (s.advance k).drawReady = s.drawReady := rfl
@[simp] theorem State.advance_buzzReady (k : Word) :
    (s.advance k).buzzReady = s.buzzReady := rfl
@[simp] theorem State.advance_runState (k : Word) :
    (s.advance k).runState = s.runState := rfl
@[simp] theorem State.advance_waitReg (k : Word) :
    (s.advance k).waitReg = s.waitReg := rfl
@[simp] theorem State.advance_fault (k : Word) :
    (s.advance k).fault = s.fault := rfl
@[simp] theorem State.advance_faultCause (k : Word) :
    (s.advance k).faultCause = s.faultCause := rfl
@[simp] theorem State.advance_faultInfo (k : Word) :
    (s.advance k).faultInfo = s.faultInfo := rfl
@[simp] theorem State.advance_draws (k : Word) :
    (s.advance k).draws = s.draws := rfl

/-! ## `State.storeBytes` -/

@[simp] theorem State.storeBytes_cfg (a : Nat) (bytes : List Byte) :
    (s.storeBytes a bytes).cfg = s.cfg := rfl
@[simp] theorem State.storeBytes_v (a : Nat) (bytes : List Byte) :
    (s.storeBytes a bytes).v = s.v := rfl
@[simp] theorem State.storeBytes_index (a : Nat) (bytes : List Byte) :
    (s.storeBytes a bytes).index = s.index := rfl
@[simp] theorem State.storeBytes_pc (a : Nat) (bytes : List Byte) :
    (s.storeBytes a bytes).pc = s.pc := rfl
@[simp] theorem State.storeBytes_stack (a : Nat) (bytes : List Byte) :
    (s.storeBytes a bytes).stack = s.stack := rfl
@[simp] theorem State.storeBytes_mem (a : Nat) (bytes : List Byte) :
    (s.storeBytes a bytes).mem = s.mem.writeBytes s.cfg a bytes := rfl
@[simp] theorem State.storeBytes_fb (a : Nat) (bytes : List Byte) :
    (s.storeBytes a bytes).fb = s.fb := rfl
@[simp] theorem State.storeBytes_dt (a : Nat) (bytes : List Byte) :
    (s.storeBytes a bytes).dt = s.dt := rfl
@[simp] theorem State.storeBytes_st (a : Nat) (bytes : List Byte) :
    (s.storeBytes a bytes).st = s.st := rfl
@[simp] theorem State.storeBytes_key (a : Nat) (bytes : List Byte) :
    (s.storeBytes a bytes).key = s.key := rfl
@[simp] theorem State.storeBytes_drawReady (a : Nat) (bytes : List Byte) :
    (s.storeBytes a bytes).drawReady = s.drawReady := rfl
@[simp] theorem State.storeBytes_buzzReady (a : Nat) (bytes : List Byte) :
    (s.storeBytes a bytes).buzzReady = s.buzzReady := rfl
@[simp] theorem State.storeBytes_runState (a : Nat) (bytes : List Byte) :
    (s.storeBytes a bytes).runState = s.runState := rfl
@[simp] theorem State.storeBytes_waitReg (a : Nat) (bytes : List Byte) :
    (s.storeBytes a bytes).waitReg = s.waitReg := rfl
@[simp] theorem State.storeBytes_fault (a : Nat) (bytes : List Byte) :
    (s.storeBytes a bytes).fault = s.fault := rfl
@[simp] theorem State.storeBytes_faultCause (a : Nat) (bytes : List Byte) :
    (s.storeBytes a bytes).faultCause = s.faultCause := rfl
@[simp] theorem State.storeBytes_faultInfo (a : Nat) (bytes : List Byte) :
    (s.storeBytes a bytes).faultInfo = s.faultInfo := rfl
@[simp] theorem State.storeBytes_draws (a : Nat) (bytes : List Byte) :
    (s.storeBytes a bytes).draws = s.draws := rfl

/-! ## `State.setKey` -/

@[simp] theorem State.setKey_cfg (k : Key) (b : Bool) :
    (s.setKey k b).cfg = s.cfg := rfl
@[simp] theorem State.setKey_v (k : Key) (b : Bool) :
    (s.setKey k b).v = s.v := rfl
@[simp] theorem State.setKey_index (k : Key) (b : Bool) :
    (s.setKey k b).index = s.index := rfl
@[simp] theorem State.setKey_pc (k : Key) (b : Bool) :
    (s.setKey k b).pc = s.pc := rfl
@[simp] theorem State.setKey_stack (k : Key) (b : Bool) :
    (s.setKey k b).stack = s.stack := rfl
@[simp] theorem State.setKey_mem (k : Key) (b : Bool) :
    (s.setKey k b).mem = s.mem := rfl
@[simp] theorem State.setKey_fb (k : Key) (b : Bool) :
    (s.setKey k b).fb = s.fb := rfl
@[simp] theorem State.setKey_dt (k : Key) (b : Bool) :
    (s.setKey k b).dt = s.dt := rfl
@[simp] theorem State.setKey_st (k : Key) (b : Bool) :
    (s.setKey k b).st = s.st := rfl
@[simp] theorem State.setKey_key (k : Key) (b : Bool) :
    (s.setKey k b).key = s.key.set k.val b k.isLt := rfl
@[simp] theorem State.setKey_drawReady (k : Key) (b : Bool) :
    (s.setKey k b).drawReady = s.drawReady := rfl
@[simp] theorem State.setKey_buzzReady (k : Key) (b : Bool) :
    (s.setKey k b).buzzReady = s.buzzReady := rfl
@[simp] theorem State.setKey_runState (k : Key) (b : Bool) :
    (s.setKey k b).runState = s.runState := rfl
@[simp] theorem State.setKey_waitReg (k : Key) (b : Bool) :
    (s.setKey k b).waitReg = s.waitReg := rfl
@[simp] theorem State.setKey_fault (k : Key) (b : Bool) :
    (s.setKey k b).fault = s.fault := rfl
@[simp] theorem State.setKey_faultCause (k : Key) (b : Bool) :
    (s.setKey k b).faultCause = s.faultCause := rfl
@[simp] theorem State.setKey_faultInfo (k : Key) (b : Bool) :
    (s.setKey k b).faultInfo = s.faultInfo := rfl
@[simp] theorem State.setKey_draws (k : Key) (b : Bool) :
    (s.setKey k b).draws = s.draws := rfl

/-! ## `State.raise` -/

@[simp] theorem State.raise_cfg (cause : FaultCause) (info : Nat) :
    (s.raise cause info).cfg = s.cfg := rfl
@[simp] theorem State.raise_v (cause : FaultCause) (info : Nat) :
    (s.raise cause info).v = s.v := rfl
@[simp] theorem State.raise_index (cause : FaultCause) (info : Nat) :
    (s.raise cause info).index = s.index := rfl
@[simp] theorem State.raise_pc (cause : FaultCause) (info : Nat) :
    (s.raise cause info).pc = s.pc := rfl
@[simp] theorem State.raise_stack (cause : FaultCause) (info : Nat) :
    (s.raise cause info).stack = s.stack := rfl
@[simp] theorem State.raise_mem (cause : FaultCause) (info : Nat) :
    (s.raise cause info).mem = s.mem := rfl
@[simp] theorem State.raise_fb (cause : FaultCause) (info : Nat) :
    (s.raise cause info).fb = s.fb := rfl
@[simp] theorem State.raise_dt (cause : FaultCause) (info : Nat) :
    (s.raise cause info).dt = s.dt := rfl
@[simp] theorem State.raise_st (cause : FaultCause) (info : Nat) :
    (s.raise cause info).st = s.st := rfl
@[simp] theorem State.raise_key (cause : FaultCause) (info : Nat) :
    (s.raise cause info).key = s.key := rfl
@[simp] theorem State.raise_drawReady (cause : FaultCause) (info : Nat) :
    (s.raise cause info).drawReady = s.drawReady := rfl
@[simp] theorem State.raise_buzzReady (cause : FaultCause) (info : Nat) :
    (s.raise cause info).buzzReady = s.buzzReady := rfl
@[simp] theorem State.raise_runState (cause : FaultCause) (info : Nat) :
    (s.raise cause info).runState = s.runState := rfl
@[simp] theorem State.raise_waitReg (cause : FaultCause) (info : Nat) :
    (s.raise cause info).waitReg = s.waitReg := rfl
@[simp] theorem State.raise_fault (cause : FaultCause) (info : Nat) :
    (s.raise cause info).fault = true := rfl
@[simp] theorem State.raise_faultCause (cause : FaultCause) (info : Nat) :
    (s.raise cause info).faultCause = cause := rfl
@[simp] theorem State.raise_faultInfo (cause : FaultCause) (info : Nat) :
    (s.raise cause info).faultInfo = BitVec.ofNat 16 info := rfl
@[simp] theorem State.raise_draws (cause : FaultCause) (info : Nat) :
    (s.raise cause info).draws = s.draws := rfl

/-! ## `State.timerPhase` -/

@[simp] theorem State.timerPhase_cfg :
    (s.timerPhase).cfg = s.cfg := rfl
@[simp] theorem State.timerPhase_v :
    (s.timerPhase).v = s.v := rfl
@[simp] theorem State.timerPhase_index :
    (s.timerPhase).index = s.index := rfl
@[simp] theorem State.timerPhase_pc :
    (s.timerPhase).pc = s.pc := rfl
@[simp] theorem State.timerPhase_stack :
    (s.timerPhase).stack = s.stack := rfl
@[simp] theorem State.timerPhase_mem :
    (s.timerPhase).mem = s.mem := rfl
@[simp] theorem State.timerPhase_fb :
    (s.timerPhase).fb = s.fb := rfl
@[simp] theorem State.timerPhase_dt :
    (s.timerPhase).dt = countDown s.dt := rfl
@[simp] theorem State.timerPhase_st :
    (s.timerPhase).st = countDown s.st := rfl
@[simp] theorem State.timerPhase_key :
    (s.timerPhase).key = s.key := rfl
@[simp] theorem State.timerPhase_drawReady :
    (s.timerPhase).drawReady = s.drawReady := rfl
@[simp] theorem State.timerPhase_buzzReady :
    (s.timerPhase).buzzReady = (s.buzzReady || s.st == 1) := rfl
@[simp] theorem State.timerPhase_runState :
    (s.timerPhase).runState = s.runState := rfl
@[simp] theorem State.timerPhase_waitReg :
    (s.timerPhase).waitReg = s.waitReg := rfl
@[simp] theorem State.timerPhase_fault :
    (s.timerPhase).fault = s.fault := rfl
@[simp] theorem State.timerPhase_faultCause :
    (s.timerPhase).faultCause = s.faultCause := rfl
@[simp] theorem State.timerPhase_faultInfo :
    (s.timerPhase).faultInfo = s.faultInfo := rfl
@[simp] theorem State.timerPhase_draws :
    (s.timerPhase).draws = s.draws := rfl

/-! ## `State.skipIf`, `State.setFlag` in terms of the above -/

@[simp] theorem State.skipIf_eq (c : Bool) : s.skipIf c = s.advance (if c then 4 else 2) := rfl

@[simp] theorem State.setFlag_eq (c : Bool) : s.setFlag c = s.setReg flagReg (flagByte c) := rfl

/-! ## What the reads see through the updates -/

@[simp] theorem State.reg_setReg (x j : Reg) (b : Byte) :
    (s.setReg x b).reg j = if j = x then b else s.reg j := by
  by_cases h : j = x
  · subst h; simp [State.reg, State.setReg]
  · have h' : x.val ≠ j.val := fun e => h (Fin.ext e.symm)
    simp [State.reg, State.setReg, h, Vector.getElem_set_ne, h']

@[simp] theorem State.reg_advance (k : Word) (j : Reg) : (s.advance k).reg j = s.reg j := rfl

@[simp] theorem State.reg_storeBytes (a : Nat) (bytes : List Byte) (j : Reg) :
    (s.storeBytes a bytes).reg j = s.reg j := rfl

@[simp] theorem State.reg_raise (cause : FaultCause) (info : Nat) (j : Reg) :
    (s.raise cause info).reg j = s.reg j := rfl

@[simp] theorem State.reg_timerPhase (j : Reg) : s.timerPhase.reg j = s.reg j := rfl

@[simp] theorem State.byteAt_setReg (x : Reg) (b : Byte) (a : Nat) : (s.setReg x b).byteAt a = s.byteAt a := rfl

@[simp] theorem State.byteAt_advance (k : Word) (a : Nat) : (s.advance k).byteAt a = s.byteAt a := rfl

@[simp] theorem State.byteAt_raise (cause : FaultCause) (info a : Nat) :
    (s.raise cause info).byteAt a = s.byteAt a := rfl

@[simp] theorem State.byteAt_timerPhase (a : Nat) : s.timerPhase.byteAt a = s.byteAt a := rfl

theorem State.keyHeld_setKey (k : Key) (b : Bool) (j : Nat) :
    (s.setKey k b).keyHeld j = if j = k.val then b else s.keyHeld j := by
  by_cases h : j < 16
  · by_cases e : j = k.val
    · subst e; simp [State.keyHeld, State.setKey]
    · simp [State.keyHeld, State.setKey, h, e, Vector.getElem_set_ne, Ne.symm e]
  · have e : j ≠ k.val := fun e => h (e ▸ k.isLt)
    simp [State.keyHeld, h, e]

/-- Two register files that read alike are equal. -/
theorem State.v_ext {s t : State} (h : ∀ j, t.reg j = s.reg j) : t.v = s.v := by
  apply Vector.ext
  intro i hi
  exact h ⟨i, hi⟩

end Sys2Proof.Machine
end

