-- ==== Sys2Proof/Laws/Ops.lean ====
section
/-! SUPPORT. One lemma per shared operation that says everything it can do: the checks, the stack, the flag-then-result pair, the
two phases of a cycle; and how to prove a frame. -/

namespace Sys2Proof.Machine

/-! ## Frames -/

theorem ChangesOnly.refl (parts : List Part) (s : State) : ChangesOnly parts s s := by
  intro p _; cases p <;> simp [Part.Same]

theorem ChangesOnly.trans {parts : List Part} {s t u : State} (h1 : ChangesOnly parts s t) (h2 : ChangesOnly parts t u) :
    ChangesOnly parts s u := by
  intro p hp
  have a := h1 p hp; have b := h2 p hp
  cases p <;> simp_all [Part.Same]

theorem ChangesOnly.mono {small big : List Part} {s t : State} (hsub : ∀ p ∈ small, p ∈ big) (h : ChangesOnly small s t) :
    ChangesOnly big s t := fun p hp => h p fun hm => hp (hsub p hm)

/-! ## Checks -/

/-- The memory check fails exactly when there is a byte and the highest address does not exist (R46). -/
theorem State.checkMemory_fail (s : State) (len : Nat) (k : Answer) (h : 0 < len ∧ 4095 < s.index.toNat + (len - 1)) :
    s.checkMemory len k = .next (s.raise .memoryOutOfRange (max s.index.toNat 4096)) := if_pos h

theorem State.checkMemory_pass (s : State) (len : Nat) (k : Answer) (h : ¬ (0 < len ∧ 4095 < s.index.toNat + (len - 1))) :
    s.checkMemory len k = k := if_neg h

/-- If the memory check answers a next state, it is the fault or what comes after the check. -/
theorem State.checkMemory_cases {s t : State} {len : Nat} {k : Answer} (h : s.checkMemory len k = .next t) :
    (0 < len ∧ 4095 < s.index.toNat + (len - 1) ∧ t = s.raise .memoryOutOfRange (max s.index.toNat 4096)) ∨
    (¬ (0 < len ∧ 4095 < s.index.toNat + (len - 1)) ∧ k = .next t) := by
  by_cases hc : 0 < len ∧ 4095 < s.index.toNat + (len - 1)
  · rw [s.checkMemory_fail len k hc] at h
    exact .inl ⟨hc.1, hc.2, (Host.Outcome.next.inj h).symm⟩
  · rw [s.checkMemory_pass len k hc] at h
    exact .inr ⟨hc, h⟩

/-- A skip on a key: the fault above 15, the skip otherwise (R170, R171). -/
theorem State.skipOnKey_cases {s t : State} {k : Byte} {held : Bool} (h : s.skipOnKey k held = .next t) :
    (15 < k.toNat ∧ t = s.raise .keyIndexOutOfRange k.toNat) ∨
    (k.toNat ≤ 15 ∧ t = s.advance (if s.keyHeld k.toNat == held then 4 else 2)) := by
  unfold State.skipOnKey at h
  split_ifs at h with hk
  · exact .inl ⟨hk, (Host.Outcome.next.inj h).symm⟩
  · exact .inr ⟨by omega, (Host.Outcome.next.inj h).symm⟩

/-! ## The stack -/

theorem State.push_full (s : State) (a : Word) (h : s.cfg.stackDepth ≤ s.sp) : s.push a = none := if_pos h

theorem State.push_room (s : State) (a : Word) (h : s.sp < s.cfg.stackDepth) :
    s.push a = some { s with stack := s.stack ++ [a] } := if_neg (by omega)

theorem State.pop_empty (s : State) (h : s.stack = []) : s.pop = none := by simp [State.pop, h]

theorem State.pop_append (s : State) (rest : List Word) (a : Word) (h : s.stack = rest ++ [a]) :
    s.pop = some (a, { s with stack := rest }) := by simp [State.pop, h]

/-! ## Flag, then result -/

/-- The registers after the two statements: VF holds the flag unless `x` is VF itself, and `x` holds the result. -/
theorem State.flagThenResult_reg (s : State) (x j : Reg) (flag : Bool) (result : State → Byte) :
    (s.flagThenResult x flag result).reg j =
      if j = x then result (s.setFlag flag) else if j = flagReg then flagByte flag else s.reg j := by
  simp [State.flagThenResult]

/-- The two statements change registers only. -/
theorem State.flagThenResult_frame (s : State) (x : Reg) (flag : Bool) (result : State → Byte) :
    ChangesOnly [.registers] s (s.flagThenResult x flag result) := by
  intro p hp
  cases p <;> first | exact fun _ => rfl | exact ⟨rfl, rfl, rfl⟩ | exact ⟨rfl, rfl⟩ | rfl | exact (hp (by decide)).elim

/-! ## The timer phase -/

theorem countDown_toNat (b : Byte) : (countDown b).toNat = b.toNat - 1 := by
  unfold countDown
  split_ifs with h
  · subst h; rfl
  · have hb : b.toNat ≠ 0 := fun e => h (BitVec.eq_of_toNat_eq (by simpa using e))
    have := b.isLt
    rw [BitVec.toNat_sub]
    change (2 ^ 8 - 1 + b.toNat) % 2 ^ 8 = b.toNat - 1
    omega

theorem State.timerPhase_frame (s : State) : ChangesOnly [.delayTimer, .soundTimer, .buzzReady] s s.timerPhase := by
  intro p hp
  cases p <;> first | exact fun _ => rfl | exact ⟨rfl, rfl, rfl⟩ | exact ⟨rfl, rfl⟩ | rfl | exact (hp (by decide)).elim

/-! ## The instruction phase and the step -/

theorem State.blocked_iff (s : State) : s.blocked = true ↔ s.fault = true ∨ s.runState = .awaitingKey := by
  simp [State.blocked]

theorem State.Fetches.not_blocked {s : State} (h : s.Fetches) : s.blocked = false := by
  simp [State.blocked, h.1, h.2.1]

theorem instructionPhase_blocked {s : State} (h : s.blocked = true) : instructionPhase s = .next s := by
  simp [instructionPhase, h]

theorem instructionPhase_outOfRange {s : State} (h : s.blocked = false) (hpc : 4094 < s.pc.toNat) :
    instructionPhase s = .next (s.raise .fetchOutOfRange s.pc.toNat) := by
  simp [instructionPhase, h, hpc]

theorem instructionPhase_decoded {s : State} {i : Instr} (h : s.Fetches) (hd : decodeWord s.fetchWord = .ok i) :
    instructionPhase s = exec i s := by
  have := h.2.2
  simp [instructionPhase, h.not_blocked, hd, show ¬ 4094 < s.pc.toNat by omega]

theorem instructionPhase_unrecognised {s : State} {e : DecodeError} (h : s.Fetches) (hd : decodeWord s.fetchWord = .error e) :
    instructionPhase s = .next (s.unrecognisedWord s.fetchWord) := by
  have := h.2.2
  simp [instructionPhase, h.not_blocked, hd, show ¬ 4094 < s.pc.toNat by omega]

/-- Everything an instruction phase that answers a next state can have done. -/
theorem instructionPhase_cases {s t : State} (h : instructionPhase s = .next t) :
    (s.blocked = true ∧ t = s) ∨
    (s.blocked = false ∧ 4094 < s.pc.toNat ∧ t = s.raise .fetchOutOfRange s.pc.toNat) ∨
    (s.Fetches ∧ ∃ i, decodeWord s.fetchWord = .ok i ∧ exec i s = .next t) ∨
    (s.Fetches ∧ (∃ e, decodeWord s.fetchWord = .error e) ∧ t = s.unrecognisedWord s.fetchWord) := by
  by_cases hb : s.blocked = true
  · rw [instructionPhase_blocked hb] at h
    exact .inl ⟨hb, (Host.Outcome.next.inj h).symm⟩
  · have hb' : s.blocked = false := by simpa using hb
    by_cases hp : 4094 < s.pc.toNat
    · rw [instructionPhase_outOfRange hb' hp] at h
      exact .inr (.inl ⟨hb', hp, (Host.Outcome.next.inj h).symm⟩)
    · have hf : s.Fetches := by
        have := mt s.blocked_iff.mpr hb
        push Not at this
        refine ⟨by simpa using this.1, ?_, by omega⟩
        cases hr : s.runState with
        | running => rfl
        | awaitingKey => exact absurd hr this.2
      cases hd : decodeWord s.fetchWord with
      | ok i => exact .inr (.inr (.inl ⟨hf, i, rfl, by rwa [instructionPhase_decoded hf hd] at h⟩))
      | error e =>
        rw [instructionPhase_unrecognised hf hd] at h
        exact .inr (.inr (.inr ⟨hf, ⟨e, rfl⟩, (Host.Outcome.next.inj h).symm⟩))

/-- A step that answers a next state is an instruction phase followed by the timer phase (R80). -/
theorem step_cases {s u : State} (h : step s = .next u) : ∃ t, instructionPhase s = .next t ∧ u = t.timerPhase := by
  unfold step withTimerPhase at h
  cases hi : instructionPhase s with
  | next t => rw [hi] at h; exact ⟨t, rfl, (Host.Outcome.next.inj h).symm⟩
  | fault r => rw [hi] at h; exact absurd h (by simp)
  | refused r => rw [hi] at h; exact absurd h (by simp)

theorem step_of_phase {s t : State} (h : instructionPhase s = .next t) : step s = .next t.timerPhase := by
  unfold step; rw [h]; rfl

/-! ## Sequences of operations -/

theorem performAll_nil (s : State) : performAll [] s = .next s := rfl

theorem performAll_cons {op : HostOp} {ops : List HostOp} {s t : State} (h : perform op s = .next t) :
    performAll (op :: ops) s = performAll ops t := by simp [performAll, h]

theorem cycles_succ {n : Nat} {s t : State} (h : step s = .next t) : cycles (n + 1) s = cycles n t := by
  unfold cycles; rw [List.replicate_succ]; exact performAll_cons h

end Sys2Proof.Machine
end

