-- ==== Sys2Proof/Laws/Instructions.lean ====
section
/-! SUPPORT. One lemma for each meaning that can end in more than one way: everything it can answer. Each says of the answer
`next t` what `t` is, so that a proof over all instructions takes these apart and never unfolds the meaning. -/

namespace Sys2Proof.Machine

/-- 2NNN: a full stack's fault, or the push and the jump (R102). -/
theorem execCallNnn_cases {nnn : Addr} {s t : State} (h : execCallNnn nnn s = .next t) :
    (s.cfg.stackDepth ≤ s.sp ∧ t = s.raise .stackOverflow s.pc.toNat) ∨
    (s.sp < s.cfg.stackDepth ∧ t = { s with stack := s.stack ++ [s.pc + 2], pc := addrWord nnn }) := by
  unfold execCallNnn at h
  by_cases hfull : s.cfg.stackDepth ≤ s.sp
  · rw [State.push_full _ _ hfull] at h
    exact .inl ⟨hfull, (Host.Outcome.next.inj h).symm⟩
  · rw [State.push_room _ _ (by omega)] at h
    exact .inr ⟨by omega, (Host.Outcome.next.inj h).symm⟩

/-- 00EE: an empty stack's fault, or the pop and the jump (R103). -/
theorem execRet_cases {s t : State} (h : execRet s = .next t) :
    (s.sp = 0 ∧ t = s.raise .stackUnderflow s.pc.toNat) ∨
    (∃ rest a, s.stack = rest ++ [a] ∧ t = { s with stack := rest, pc := a }) := by
  unfold execRet at h
  rcases List.eq_nil_or_concat s.stack with hnil | ⟨rest, a, hcons⟩
  · rw [State.pop_empty _ hnil] at h
    exact .inl ⟨by simp [State.sp, hnil], (Host.Outcome.next.inj h).symm⟩
  · have hs : s.stack = rest ++ [a] := by simpa using hcons
    rw [State.pop_append _ rest a hs] at h
    exact .inr ⟨rest, a, hs, (Host.Outcome.next.inj h).symm⟩

/-- DXYN: the memory fault, the framebuffer fault, or a drawn screen with the collision flag (R151). What is drawn is said by
`plotRows_spec`. -/
theorem execDrwVxVyN_cases {x y : Reg} {n : Nat} {s t : State} (h : execDrwVxVyN x y n s = .next t) :
    (0 < n ∧ 4095 < s.index.toNat + (n - 1) ∧ t = s.raise .memoryOutOfRange (max s.index.toNat 4096)) ∨
    (¬ (0 < n ∧ 4095 < s.index.toNat + (n - 1)) ∧ 0 < n ∧ 2047 < lastCell (s.reg x).toNat (s.reg y).toNat n ∧
      t = s.raise .framebufferOutOfRange (lastCell (s.reg x).toNat (s.reg y).toNat n)) ∨
    (¬ (0 < n ∧ 4095 < s.index.toNat + (n - 1)) ∧ ¬ (0 < n ∧ 2047 < lastCell (s.reg x).toNat (s.reg y).toNat n) ∧
      ∃ drawn hit, (drawn, hit) = plotRows (s.spriteRows n) ((s.reg x).toNat + (s.reg y).toNat * 64) (s.fb, false) ∧
        t = ({ s with fb := drawn, drawReady := true }.setFlag hit).advance 2) := by
  unfold execDrwVxVyN at h
  rcases State.checkMemory_cases h with ⟨hn, hmem, ht⟩ | ⟨hmem, h⟩
  · exact .inl ⟨hn, hmem, ht⟩
  · split_ifs at h with hfb
    · exact .inr (.inl ⟨hmem, hfb.1, hfb.2, (Host.Outcome.next.inj h).symm⟩)
    · exact .inr (.inr ⟨hmem, hfb, _, _, rfl, (Host.Outcome.next.inj h).symm⟩)

/-- Every instruction answers a next state: a fault of the spec is one (R211, log entry 2). -/
theorem exec_total (i : Instr) (s : State) : ∃ t, exec i s = .next t := by
  cases i
  case ret => simp only [exec, execRet]; split <;> exact ⟨_, rfl⟩
  case callNnn nnn => simp only [exec, execCallNnn]; split <;> exact ⟨_, rfl⟩
  case drwVxVyN x y n =>
    simp only [exec, execDrwVxVyN, State.checkMemory]
    split
    · exact ⟨_, rfl⟩
    · split <;> exact ⟨_, rfl⟩
  case skpVx x => simp only [exec, execSkpVx, State.skipOnKey]; split <;> exact ⟨_, rfl⟩
  case sknpVx x => simp only [exec, execSknpVx, State.skipOnKey]; split <;> exact ⟨_, rfl⟩
  case ldBVx x => simp only [exec, execLdBVx, State.checkMemory]; split <;> exact ⟨_, rfl⟩
  case ldMemVx x => simp only [exec, execLdMemVx, State.checkMemory]; split <;> exact ⟨_, rfl⟩
  case ldVxMem x => simp only [exec, execLdVxMem, State.checkMemory]; split <;> exact ⟨_, rfl⟩
  all_goals exact ⟨_, rfl⟩

/-- So does every instruction phase. -/
theorem instructionPhase_total (s : State) : ∃ t, instructionPhase s = .next t := by
  unfold instructionPhase
  split_ifs
  · exact ⟨_, rfl⟩
  · exact ⟨_, rfl⟩
  · split
    · exact exec_total _ _
    · exact ⟨_, rfl⟩

/-- A step as one of the host's operations. -/
theorem perform_step (s : State) : perform .step s = step s := rfl

end Sys2Proof.Machine
end

