-- ==== Sys2Proof/Laws/PerInstr.lean ====
section
/-! SUPPORT. Statements made of every instruction as syntax, one lemma per constructor. -/

namespace Sys2Proof.Laws.EncodedRow

/-- The word of a well-formed instruction matches the row of the opcode map that R71 gives the instruction. -/
def Statement (i : Instr) : Prop := i.wellFormed = true → i.row.matches (encode i) = true

theorem addr_row (f : Nat) (hf : f < 16) (nnn : Addr) (p : Word) (hp : p.toNat = f * 4096) :
    (OpcodeRow.mk p 0xF000).matches (packAddr f nnn) = true := by
  have := nnn.isLt
  rw [matches_F000, hp, packAddr, BitVec.toNat_ofNat]; omega

theorem regImm_row (f : Nat) (hf : f < 16) (x : Reg) (nn : Byte) (p : Word) (hp : p.toNat = f * 4096) :
    (OpcodeRow.mk p 0xF000).matches (packRegByte f x nn.toNat) = true := by
  have := nn.isLt; have := x.isLt
  rw [matches_F000, hp, packRegByte, BitVec.toNat_ofNat]; omega

theorem regOp_row (f : Nat) (hf : f < 16) (x : Reg) (n : Nat) (hn : n < 256) (p : Word) (hp : p.toNat = f * 4096 + n) :
    (OpcodeRow.mk p 0xF0FF).matches (packRegByte f x n) = true := by
  have := x.isLt
  rw [matches_F0FF, hp, packRegByte, BitVec.toNat_ofNat]; omega

theorem regReg_row (f : Nat) (hf : f < 16) (x y : Reg) (n : Nat) (hn : n ≤ 15) (p : Word) (hp : p.toNat = f * 4096) :
    (OpcodeRow.mk p 0xF000).matches (packRegReg f x y n) = true := by
  have := x.isLt; have := y.isLt
  rw [matches_F000, hp, packRegReg, BitVec.toNat_ofNat]; omega

theorem regRegOp_row (f : Nat) (hf : f < 16) (x y : Reg) (n : Nat) (hn : n ≤ 15) (p : Word) (hp : p.toNat = f * 4096 + n) :
    (OpcodeRow.mk p 0xF00F).matches (packRegReg f x y n) = true := by
  have := x.isLt; have := y.isLt
  rw [matches_F00F, hp, packRegReg, BitVec.toNat_ofNat]; omega

theorem cls : Statement .cls := fun _ => by decide
theorem ret : Statement .ret := fun _ => by decide
theorem jpNnn (nnn : Addr) : Statement (.jpNnn nnn) := fun _ => addr_row 0x1 (by omega) nnn _ rfl
theorem callNnn (nnn : Addr) : Statement (.callNnn nnn) := fun _ => addr_row 0x2 (by omega) nnn _ rfl
theorem seVxNn (x : Reg) (nn : Byte) : Statement (.seVxNn x nn) := fun _ => regImm_row 0x3 (by omega) x nn _ rfl
theorem sneVxNn (x : Reg) (nn : Byte) : Statement (.sneVxNn x nn) := fun _ => regImm_row 0x4 (by omega) x nn _ rfl
theorem seVxVy (x y : Reg) (n : Nat) : Statement (.seVxVy x y n) := fun h =>
  regReg_row 0x5 (by omega) x y n (by simpa [Instr.wellFormed, fitsNibble] using h) _ rfl
theorem ldVxNn (x : Reg) (nn : Byte) : Statement (.ldVxNn x nn) := fun _ => regImm_row 0x6 (by omega) x nn _ rfl
theorem addVxNn (x : Reg) (nn : Byte) : Statement (.addVxNn x nn) := fun _ => regImm_row 0x7 (by omega) x nn _ rfl
theorem ldVxVy (x y : Reg) : Statement (.ldVxVy x y) := fun _ => regRegOp_row 0x8 (by omega) x y 0 (by omega) _ rfl
theorem orVxVy (x y : Reg) : Statement (.orVxVy x y) := fun _ => regRegOp_row 0x8 (by omega) x y 1 (by omega) _ rfl
theorem andVxVy (x y : Reg) : Statement (.andVxVy x y) := fun _ => regRegOp_row 0x8 (by omega) x y 2 (by omega) _ rfl
theorem xorVxVy (x y : Reg) : Statement (.xorVxVy x y) := fun _ => regRegOp_row 0x8 (by omega) x y 3 (by omega) _ rfl
theorem addVxVy (x y : Reg) : Statement (.addVxVy x y) := fun _ => regRegOp_row 0x8 (by omega) x y 4 (by omega) _ rfl
theorem subVxVy (x y : Reg) : Statement (.subVxVy x y) := fun _ => regRegOp_row 0x8 (by omega) x y 5 (by omega) _ rfl
theorem shrVx (x y : Reg) : Statement (.shrVx x y) := fun _ => regRegOp_row 0x8 (by omega) x y 6 (by omega) _ rfl
theorem subnVxVy (x y : Reg) : Statement (.subnVxVy x y) := fun _ => regRegOp_row 0x8 (by omega) x y 7 (by omega) _ rfl
theorem shlVx (x y : Reg) : Statement (.shlVx x y) := fun _ => regRegOp_row 0x8 (by omega) x y 0xE (by omega) _ rfl
theorem sneVxVy (x y : Reg) (n : Nat) : Statement (.sneVxVy x y n) := fun h =>
  regReg_row 0x9 (by omega) x y n (by simpa [Instr.wellFormed, fitsNibble] using h) _ rfl
theorem ldINnn (nnn : Addr) : Statement (.ldINnn nnn) := fun _ => addr_row 0xA (by omega) nnn _ rfl
theorem jpV0Nnn (nnn : Addr) : Statement (.jpV0Nnn nnn) := fun _ => addr_row 0xB (by omega) nnn _ rfl
theorem rndVxNn (x : Reg) (nn : Byte) : Statement (.rndVxNn x nn) := fun _ => regImm_row 0xC (by omega) x nn _ rfl
theorem drwVxVyN (x y : Reg) (n : Nat) : Statement (.drwVxVyN x y n) := fun h =>
  regReg_row 0xD (by omega) x y n (by simpa [Instr.wellFormed, fitsNibble] using h) _ rfl
theorem skpVx (x : Reg) : Statement (.skpVx x) := fun _ => regOp_row 0xE (by omega) x 0x9E (by omega) _ rfl
theorem sknpVx (x : Reg) : Statement (.sknpVx x) := fun _ => regOp_row 0xE (by omega) x 0xA1 (by omega) _ rfl
theorem ldVxDt (x : Reg) : Statement (.ldVxDt x) := fun _ => regOp_row 0xF (by omega) x 0x07 (by omega) _ rfl
theorem ldVxK (x : Reg) : Statement (.ldVxK x) := fun _ => regOp_row 0xF (by omega) x 0x0A (by omega) _ rfl
theorem ldDtVx (x : Reg) : Statement (.ldDtVx x) := fun _ => regOp_row 0xF (by omega) x 0x15 (by omega) _ rfl
theorem ldStVx (x : Reg) : Statement (.ldStVx x) := fun _ => regOp_row 0xF (by omega) x 0x18 (by omega) _ rfl
theorem addIVx (x : Reg) : Statement (.addIVx x) := fun _ => regOp_row 0xF (by omega) x 0x1E (by omega) _ rfl
theorem ldFVx (x : Reg) : Statement (.ldFVx x) := fun _ => regOp_row 0xF (by omega) x 0x29 (by omega) _ rfl
theorem ldBVx (x : Reg) : Statement (.ldBVx x) := fun _ => regOp_row 0xF (by omega) x 0x33 (by omega) _ rfl
theorem ldMemVx (x : Reg) : Statement (.ldMemVx x) := fun _ => regOp_row 0xF (by omega) x 0x55 (by omega) _ rfl
theorem ldVxMem (x : Reg) : Statement (.ldVxMem x) := fun _ => regOp_row 0xF (by omega) x 0x65 (by omega) _ rfl

end Sys2Proof.Laws.EncodedRow
end

