-- ==== Sys2Proof/Tests/Slice0.lean ====
section
/-! SUPPORT. Tests: ill-formed instructions are refused; words written out from spec/30_encoding.md R71 decode to their
instructions; one cycle of each instruction gives what spec/95_test_vectors.md says (the section is named at each group); and for
every obligation that has hypotheses, a state and operands that meet them. -/

set_option maxRecDepth 8000

namespace Sys2Proof.Tests

open Sys2Proof.Machine

/-! ## Helpers -/

/-- The reset state with a word at 0x200, the start state of the vectors. -/
def loaded (w : Nat) : State := State.reset.withFetchWord 16 w

/-- `loaded` at another address. -/
def loadedAt (pc : Word) (w : Nat) : State := { State.reset with pc := pc }.withFetchWord 16 w

/-- Registers set. -/
def withRegs (s : State) (regs : List (Reg × Byte)) : State := regs.foldl (fun t p => t.setReg p.1 p.2) s

/-- The state at the end of one cycle. -/
def after (s : State) : State :=
  match step s with
  | .next t => t
  | .fault r => nomatch r
  | .refused _ => s

/-- What a cycle latched: cause code and information. -/
def latched (s : State) : Bool × BitVec 3 × Word := ((after s).fault, (after s).faultCause.code, (after s).faultInfo)

/-- The parameters with `STRICT_DECODE`. -/
def strict (s : State) : State := { s with cfg := { s.cfg with strictDecode := true } }

/-! ## Well-formed instructions -/

theorem test_wf_refuses_se_nibble : (Instr.seVxVy 1 2 16).wellFormed = false := by decide
theorem test_wf_refuses_sne_nibble : (Instr.sneVxVy 1 2 16).wellFormed = false := by decide
theorem test_wf_refuses_drw_nibble : (Instr.drwVxVyN 0 1 16).wellFormed = false := by decide
theorem test_wf_accepts_drw_nibble : (Instr.drwVxVyN 0 1 15).wellFormed = true := by decide

/-! ## Decoding, every constructor (30_encoding.md R71; 95_test_vectors.md 2.1) -/

theorem test_decode_family0 : decodeWord 0x00E0 = .ok .cls ∧ decodeWord 0x00EE = .ok .ret := by decide
theorem test_decode_jump : decodeWord 0x1ABC = .ok (.jpNnn 0xABC) := by decide
theorem test_decode_call : decodeWord 0x2208 = .ok (.callNnn 0x208) := by decide
theorem test_decode_immediate_skips :
    decodeWord 0x3A7F = .ok (.seVxNn 10 0x7F) ∧ decodeWord 0x432B = .ok (.sneVxNn 3 0x2B) := by decide
theorem test_decode_register_skips :
    decodeWord 0x5120 = .ok (.seVxVy 1 2 0) ∧ decodeWord 0x5127 = .ok (.seVxVy 1 2 7) ∧
    decodeWord 0x9120 = .ok (.sneVxVy 1 2 0) ∧ decodeWord 0x912E = .ok (.sneVxVy 1 2 14) := by decide
theorem test_decode_immediates :
    decodeWord 0x6A2F = .ok (.ldVxNn 10 0x2F) ∧ decodeWord 0x7003 = .ok (.addVxNn 0 3) := by decide
theorem test_decode_family8 :
    decodeWord 0x8120 = .ok (.ldVxVy 1 2) ∧ decodeWord 0x8121 = .ok (.orVxVy 1 2) ∧
    decodeWord 0x8122 = .ok (.andVxVy 1 2) ∧ decodeWord 0x8123 = .ok (.xorVxVy 1 2) ∧
    decodeWord 0x8AB4 = .ok (.addVxVy 10 11) ∧ decodeWord 0x8125 = .ok (.subVxVy 1 2) ∧
    decodeWord 0x8126 = .ok (.shrVx 1 2) ∧ decodeWord 0x8127 = .ok (.subnVxVy 1 2) ∧
    decodeWord 0x8ABE = .ok (.shlVx 10 11) := by decide
theorem test_decode_index_and_random :
    decodeWord 0xA2F0 = .ok (.ldINnn 0x2F0) ∧ decodeWord 0xBFFF = .ok (.jpV0Nnn 0xFFF) ∧
    decodeWord 0xC30F = .ok (.rndVxNn 3 0x0F) := by decide
theorem test_decode_draw : decodeWord 0xD01F = .ok (.drwVxVyN 0 1 15) := by decide
theorem test_decode_key_skips : decodeWord 0xE49E = .ok (.skpVx 4) ∧ decodeWord 0xE4A1 = .ok (.sknpVx 4) := by decide
theorem test_decode_familyF :
    decodeWord 0xF307 = .ok (.ldVxDt 3) ∧ decodeWord 0xF10A = .ok (.ldVxK 1) ∧ decodeWord 0xF015 = .ok (.ldDtVx 0) ∧
    decodeWord 0xF018 = .ok (.ldStVx 0) ∧ decodeWord 0xF21E = .ok (.addIVx 2) ∧ decodeWord 0xF229 = .ok (.ldFVx 2) ∧
    decodeWord 0xF033 = .ok (.ldBVx 0) ∧ decodeWord 0xF255 = .ok (.ldMemVx 2) ∧
    decodeWord 0xFF65 = .ok (.ldVxMem 15) := by decide
theorem test_decode_unrecognised_family0 :
    ([0x0000, 0x00E1, 0x00FE, 0x01E0, 0x0123, 0x0FFF] : List Word).all
      (fun w => decide (decodeWord w = .error (.unrecognised w))) = true := by decide
theorem test_decode_unrecognised_family8 :
    ([0x8AB8, 0x8AB9, 0x8ABA, 0x8ABB, 0x8ABC, 0x8ABD, 0x8ABF] : List Word).all
      (fun w => decide (decodeWord w = .error (.unrecognised w))) = true := by decide
theorem test_decode_unrecognised_familyE :
    ([0xE40E, 0xE49F, 0xE4A0, 0xE401, 0xE000] : List Word).all
      (fun w => decide (decodeWord w = .error (.unrecognised w))) = true := by decide
theorem test_decode_unrecognised_familyF :
    ([0xF000, 0xF005, 0xF075, 0xF085, 0xF0FF, 0xF01F] : List Word).all
      (fun w => decide (decodeWord w = .error (.unrecognised w))) = true := by decide
theorem test_decode_bytes_high_byte_first :
    decodeBytes [0x1A, 0xBC, 0x77] = .ok (.jpNnn 0xABC, [0x77]) ∧ decodeBytes [0x1A] = .error .truncated := by decide
theorem test_encode_writes_the_word :
    encode (.drwVxVyN 0 1 15) = 0xD01F ∧ encode (.shlVx 10 11) = 0x8ABE ∧ encode (.seVxVy 1 2 7) = 0x5127 ∧
    encode (.jpNnn 0xABC) = 0x1ABC ∧ encode (.ldVxMem 15) = 0xFF65 := by decide

/-! ## The cycle (95_test_vectors.md 2.2) -/

theorem test_fetch_at_4094 : (after (loadedAt 4094 0x6007)).reg 0 = 7 ∧ (after (loadedAt 4094 0x6007)).pc = 4096 := by decide
theorem test_fetch_out_of_range : latched { State.reset with pc := 4095 } = (true, 2, 0x0FFF) := by decide
theorem test_unrecognised_permissive :
    (after { loaded 0x8128 with dt := 2 }).pc = 0x200 ∧ (after { loaded 0x8128 with dt := 2 }).dt = 1 ∧
    (after { loaded 0x8128 with dt := 2 }).fault = false := by decide
theorem test_unrecognised_strict :
    latched (strict { loaded 0x8128 with dt := 2 }) = (true, 1, 0x8128) ∧
    (after (strict { loaded 0x8128 with dt := 2 })).dt = 1 := by decide
theorem test_timers_expire :
    (after { loaded 0x1200 with dt := 2, st := 1 }).dt = 1 ∧ (after { loaded 0x1200 with dt := 2, st := 1 }).st = 0 ∧
    (after { loaded 0x1200 with dt := 2, st := 1 }).buzzReady = true := by decide
theorem test_faulted_runs_timers_only :
    (after { loaded 0x6A2F with fault := true, faultCause := .stackUnderflow, st := 1 }).buzzReady = true ∧
    (after { loaded 0x6A2F with fault := true, faultCause := .stackUnderflow, st := 1 }).pc = 0x200 := by decide

/-! ## Control flow (95_test_vectors.md 2.3, S5) -/

theorem test_jump : (after (loaded 0x1ABC)).pc = 0x0ABC := by decide
theorem test_indexed_jump_past_memory :
    (after (withRegs (loaded 0xBFFF) [(0, 0xFF)])).pc = 0x10FE ∧
    (after (withRegs (loaded 0xB300) [(3, 0x50)])).pc = 0x0300 := by decide
theorem test_call_pushes :
    (after (loadedAt 0x201 0x2300)).stack = [0x0203] ∧ (after (loadedAt 0x201 0x2300)).pc = 0x0300 := by decide
theorem test_call_full :
    latched { loaded 0x2300 with stack := List.replicate 16 0x0202 } = (true, 4, 0x0200) ∧
    (after { loaded 0x2300 with stack := List.replicate 16 0x0202 }).sp = 16 := by decide
theorem test_return_pops :
    (after { loaded 0x00EE with stack := [0x0300, 0x0456] }).pc = 0x0456 ∧
    (after { loaded 0x00EE with stack := [0x0300, 0x0456] }).stack = [0x0300] := by decide
theorem test_return_empty : latched (loaded 0x00EE) = (true, 5, 0x0200) := by decide
theorem test_skip_equal_immediate :
    (after (withRegs (loaded 0x332A) [(3, 0x2A)])).pc = 0x204 ∧
    (after (withRegs (loaded 0x332B) [(3, 0x2A)])).pc = 0x202 := by decide
theorem test_skip_unequal_immediate :
    (after (withRegs (loaded 0x432A) [(3, 0x2A)])).pc = 0x202 ∧
    (after (withRegs (loaded 0x432B) [(3, 0x2A)])).pc = 0x204 := by decide
theorem test_skip_equal_register :
    (after (withRegs (loaded 0x5127) [(1, 7), (2, 7)])).pc = 0x204 ∧
    (after (withRegs (loaded 0x5120) [(1, 7), (2, 8)])).pc = 0x202 := by decide
theorem test_skip_unequal_register :
    (after (withRegs (loaded 0x9120) [(1, 7), (2, 7)])).pc = 0x202 ∧
    (after (withRegs (loaded 0x9120) [(1, 7), (2, 8)])).pc = 0x204 := by decide

/-! ## Load, arithmetic, logic, shift, index, random (95_test_vectors.md 2.4) -/

theorem test_load_immediate : (after (loaded 0x6A2F)).reg 10 = 0x2F ∧ (after (loaded 0x6A2F)).pc = 0x202 := by decide
theorem test_add_immediate_has_no_flag :
    (after (withRegs (loaded 0x7003) [(0, 0xFE)])).reg 0 = 1 ∧
    (after (withRegs (loaded 0x7003) [(0, 0xFE)])).reg 15 = 0 := by decide
theorem test_copy : (after (withRegs (loaded 0x8120) [(2, 9)])).reg 1 = 9 := by decide
theorem test_or : (after (withRegs (loaded 0x8121) [(1, 0xF0), (2, 0x0F), (15, 1)])).v =
    #v[0, 0xFF, 0x0F, 0, 0, 0, 0, 0, 0, 0, 0, 0, 0, 0, 0, 1] := by decide
theorem test_and : (after (withRegs (loaded 0x8122) [(1, 0xF0), (2, 0x0F), (15, 1)])).reg 1 = 0 := by decide
theorem test_xor :
    (after (withRegs (loaded 0x8123) [(1, 0xF0), (2, 0x0F)])).reg 1 = 0xFF ∧
    (after (withRegs (loaded 0x8113) [(1, 0x5A)])).reg 1 = 0 := by decide
theorem test_add_carry_corner :
    (after (withRegs (loaded 0x8124) [(1, 200), (2, 55)])).reg 15 = 0 ∧
    (after (withRegs (loaded 0x8124) [(1, 200), (2, 56)])).reg 15 = 1 ∧
    (after (withRegs (loaded 0x8124) [(1, 200), (2, 56)])).reg 1 = 0 := by decide
theorem test_add_with_vf :
    (after (withRegs (loaded 0x8F14) [(15, 200), (1, 100)])).reg 15 = 101 ∧
    (after (withRegs (loaded 0x81F4) [(1, 200), (15, 100)])).reg 1 = 201 := by decide
theorem test_subtract_equal :
    (after (withRegs (loaded 0x8125) [(1, 7), (2, 7), (15, 1)])).reg 15 = 0 ∧
    (after (withRegs (loaded 0x8125) [(1, 10), (2, 20)])).reg 1 = 246 ∧
    (after (withRegs (loaded 0x8125) [(1, 20), (2, 10)])).reg 15 = 1 := by decide
theorem test_subtract_with_vf :
    (after (withRegs (loaded 0x8F15) [(15, 5), (1, 3)])).reg 15 = 254 ∧
    (after (withRegs (loaded 0x81F5) [(1, 5), (15, 3)])).reg 1 = 4 := by decide
theorem test_reverse_subtract :
    (after (withRegs (loaded 0x8127) [(1, 10), (2, 20)])).reg 1 = 10 ∧
    (after (withRegs (loaded 0x8127) [(1, 10), (2, 20)])).reg 15 = 1 ∧
    (after (withRegs (loaded 0x8127) [(1, 20), (2, 10)])).reg 1 = 246 := by decide
theorem test_reverse_subtract_with_vf : (after (withRegs (loaded 0x8F17) [(15, 3), (1, 5)])).reg 15 = 4 := by decide
theorem test_shift_right :
    (after (withRegs (loaded 0x8106) [(1, 5)])).reg 1 = 2 ∧ (after (withRegs (loaded 0x8106) [(1, 5)])).reg 15 = 1 ∧
    (after (withRegs (loaded 0x8126) [(1, 4), (2, 0xFF)])).reg 1 = 2 := by decide
theorem test_shift_right_vf : (after (withRegs (loaded 0x8F06) [(15, 3)])).reg 15 = 0 := by decide
theorem test_shift_left_flag_is_bit_0 :
    (after (withRegs (loaded 0x810E) [(1, 0x80), (15, 1)])).reg 1 = 0 ∧
    (after (withRegs (loaded 0x810E) [(1, 0x80), (15, 1)])).reg 15 = 0 ∧
    (after (withRegs (loaded 0x810E) [(1, 5)])).reg 15 = 1 := by decide
theorem test_shift_left_vf : (after (withRegs (loaded 0x8F0E) [(15, 3)])).reg 15 = 2 := by decide
theorem test_load_index : (after (loaded 0xAFFF)).index = 0x0FFF := by decide
theorem test_add_index_wraps :
    (after { withRegs (loaded 0xF21E) [(2, 1)] with index := 0xFFFF }).index = 0 ∧
    (after { withRegs (loaded 0xF21E) [(2, 1)] with index := 0xFFFF }).reg 15 = 0 := by decide
theorem test_add_index_flag :
    (after { withRegs (loaded 0xF21E) [(2, 1)] with index := 0x0FFF }).reg 15 = 1 ∧
    (after { withRegs (loaded 0xFF1E) [(15, 5)] with index := 0x0100 }).index = 0x0105 ∧
    (after { withRegs (loaded 0xFF1E) [(15, 5)] with index := 0x0100 }).reg 15 = 0 := by decide
theorem test_random_draws_once : (after (loaded 0xC30F)).draws = 1 ∧ (after (loaded 0xC30F)).pc = 0x202 := by decide
theorem test_random_mask : (after (loaded 0xC3FF)).reg 3 = Config.draw 0 &&& 0xFF := rfl

/-! ## Display and timers (95_test_vectors.md 2.5) -/

/-- The start state of most draws: `I = 0x300`, bytes there. -/
def sprite (w : Nat) (bytes : List Byte) (regs : List (Reg × Byte)) : State :=
  (withRegs { loaded w with index := 0x300 } regs).storeBytes 0x300 bytes

theorem test_clear_screen :
    (after { loaded 0x00E0 with fb := blankScreen.set 31 1 }).fb = blankScreen ∧
    (after { loaded 0x00E0 with fb := blankScreen.set 31 1 }).drawReady = true := by decide
theorem test_draw_cells :
    (after (sprite 0xD012 [0xC3, 0x81] [(0, 2), (1, 1)])).fb = (blankScreen.set 1 0x30C).set 2 0x204 ∧
    (after (sprite 0xD012 [0xC3, 0x81] [(0, 2), (1, 1)])).reg 15 = 0 ∧
    (after { sprite 0xD012 [0xC3, 0x81] [(0, 2), (1, 1)] with fb := blankScreen.set 1 4 }).fb =
      (blankScreen.set 1 0x308).set 2 0x204 ∧
    (after { sprite 0xD012 [0xC3, 0x81] [(0, 2), (1, 1)] with fb := blankScreen.set 1 4 }).reg 15 = 1 := by decide
theorem test_draw_edges :
    (after (sprite 0xD011 [0xFF] [(0, 60)])).fb = (blankScreen.set 0 0xF000000000000000).set 1 0xF ∧
    (after (sprite 0xDF11 [0x80] [(15, 3)])).fb = blankScreen.set 0 8 ∧
    (after (sprite 0xD011 [0xFF] [(0, 56), (1, 31)])).fault = false ∧
    latched (sprite 0xD011 [0xFF] [(0, 57), (1, 31)]) = (true, 6, 2048) ∧
    latched { sprite 0xD011 [] [(1, 40)] with index := 5000 } = (true, 3, 5000) := by decide
theorem test_read_delay_timer :
    (after { loaded 0xF307 with dt := 9 }).reg 3 = 9 ∧ (after { loaded 0xF307 with dt := 9 }).dt = 8 := by decide
theorem test_set_delay_timer : (after (withRegs (loaded 0xF015) [(0, 3)])).dt = 2 := by decide
theorem test_set_sound_timer_one :
    (after (withRegs (loaded 0xF018) [(0, 1)])).st = 0 ∧
    (after (withRegs (loaded 0xF018) [(0, 1)])).buzzReady = true := by decide
theorem test_set_sound_timer_zero :
    (after { loaded 0xF018 with st := 5 }).st = 0 ∧ (after { loaded 0xF018 with st := 5 }).buzzReady = false := by decide

/-! ## Keyboard and memory block (95_test_vectors.md 2.6) -/

theorem test_skip_pressed :
    (after ((withRegs (loaded 0xE49E) [(4, 10)]).setKey 10 true)).pc = 0x204 ∧
    latched ((withRegs (loaded 0xE49E) [(4, 0x1A)]).setKey 10 true) = (true, 7, 26) := by decide
theorem test_skip_not_pressed :
    (after ((withRegs (loaded 0xE4A1) [(4, 10)]).setKey 10 true)).pc = 0x202 ∧
    (after (withRegs (loaded 0xE4A1) [(4, 10)])).pc = 0x204 ∧
    latched (withRegs (loaded 0xE4A1) [(4, 16)]) = (true, 7, 16) := by decide
theorem test_key_wait :
    (after ((loaded 0xF10A).setKey 5 true)).runState = .awaitingKey ∧ (after ((loaded 0xF10A).setKey 5 true)).waitReg = 1 ∧
    (after ((loaded 0xF10A).setKey 5 true)).pc = 0x202 := by decide
theorem test_font_address :
    (after (withRegs (loaded 0xF229) [(2, 255)])).index = 1275 ∧
    (after (withRegs (loaded 0xF229) [(2, 16)])).index = 80 := by decide
theorem test_decimal :
    (after { withRegs (loaded 0xF033) [(0, 254)] with index := 100 }).byteAt 100 = 2 ∧
    (after { withRegs (loaded 0xF033) [(0, 254)] with index := 100 }).byteAt 101 = 5 ∧
    (after { withRegs (loaded 0xF033) [(0, 254)] with index := 100 }).byteAt 102 = 4 := by decide
theorem test_decimal_out_of_range :
    latched { withRegs (loaded 0xF033) [(0, 123)] with index := 4094 } = (true, 3, 4096) ∧
    (after { withRegs (loaded 0xF033) [(0, 123)] with index := 4094 }).byteAt 4094 = 0 := by decide
theorem test_store_registers :
    (after { withRegs (loaded 0xF255) [(0, 1), (1, 2), (2, 3), (3, 4)] with index := 0x400 }).mem =
      [(0x200, 0xF2), (0x201, 0x55), (0x400, 1), (0x401, 2), (0x402, 3)] ∧
    (after { withRegs (loaded 0xF255) [(0, 1), (1, 2), (2, 3), (3, 4)] with index := 0x400 }).index = 0x400 := by decide
theorem test_store_out_of_range : latched { loaded 0xFF55 with index := 4081 } = (true, 3, 4096) := by decide
theorem test_load_registers :
    (after ({ withRegs (loaded 0xF265) [(3, 4)] with index := 0x400 }.storeBytes 0x400 [9, 8, 7, 6])).v =
      #v[9, 8, 7, 4, 0, 0, 0, 0, 0, 0, 0, 0, 0, 0, 0, 0] := by decide
theorem test_load_registers_from_font : (after (loaded 0xF465)).v =
    #v[0xF0, 0x90, 0x90, 0x90, 0xF0, 0, 0, 0, 0, 0, 0, 0, 0, 0, 0, 0] := by decide

/-! ## Host operations (95_test_vectors.md 2.7) -/

theorem test_key_press_while_waiting :
    (keyPress 7 ({ State.reset with runState := .awaitingKey, waitReg := 1 }.setKey 7 true)).reg 1 = 7 ∧
    (keyPress 9 (keyPress 2 { State.reset with runState := .awaitingKey, waitReg := 1 })).reg 1 = 2 := by decide
theorem test_reset_keeps_keys :
    (hostReset ({ loaded 0x6A2F with dt := 4, fault := true, stack := [1, 2] }.setKey 3 true)).keyHeld 3 = true ∧
    (hostReset ({ loaded 0x6A2F with dt := 4, fault := true, stack := [1, 2] }.setKey 3 true)).mem = [] ∧
    (hostReset ({ loaded 0x6A2F with dt := 4, fault := true, stack := [1, 2] }.setKey 3 true)).fault = false := by decide
theorem test_load_rom :
    (loadRom [9, 9] (State.reset.storeBytes 0x200 [1, 2, 3, 4])).mem = [(0x200, 9), (0x201, 9), (0x202, 3), (0x203, 4)] := by
  decide
theorem test_canonical_memory : (State.reset.storeBytes 0x0 [0xF0, 0x91, 0x90]).mem = [(1, 0x91)] := by decide

/-! ## The hypotheses of the obligations are met

One theorem for each obligation with hypotheses (named after it), each clause at a boundary of its range. -/

/-- A state that fetches the instruction `w` at 0x200. -/
theorem loaded_fetches (w : Nat) : (loaded w).Fetches := ⟨rfl, rfl, show (0x200 : Nat) ≤ 4094 by decide⟩

theorem witness_DecodeOfEncodeIsTheInstruction : (Instr.drwVxVyN 15 15 15).wellFormed = true := by decide
theorem witness_EncodeOfDecodeIsTheWord : decodeWord 0x5127 = .ok (.seVxVy 1 2 7) := by decide
theorem witness_FetchIsTheBigEndianWordAtPc :
    (loadedAt 4094 0x6007).pc.toNat ≤ 4094 ∧ (loadedAt 4094 0x6007).Fetches ∧
    decodeWord (loadedAt 4094 0x6007).fetchWord = .ok (.ldVxNn 0 7) :=
  ⟨by decide, ⟨rfl, rfl, by decide⟩, by decide⟩
theorem witness_StepRunsTheDecodedInstruction :
    (loaded 0x1ABC).Fetches ∧ decodeWord (loaded 0x1ABC).fetchWord = .ok (.jpNnn 0xABC) ∧
    ∃ t, exec (.jpNnn 0xABC) (loaded 0x1ABC) = .next t := ⟨loaded_fetches _, by decide, _, rfl⟩
theorem witness_UnrecognisedWordDoesNothing :
    State.reset.Fetches ∧ State.reset.cfg.strictDecode = false ∧
    decodeWord State.reset.fetchWord = .error (.unrecognised 0) := ⟨⟨rfl, rfl, by decide⟩, rfl, by decide⟩
theorem witness_IllegalAndUnfetchableWordsFault :
    ((strict (loaded 0x8128)).Fetches ∧ (strict (loaded 0x8128)).cfg.strictDecode = true ∧
      decodeWord (strict (loaded 0x8128)).fetchWord = .error (.unrecognised 0x8128)) ∧
    (({ State.reset with pc := 4095 } : State).fault = false ∧ ({ State.reset with pc := 4095 } : State).runState = .running ∧
      4094 < ({ State.reset with pc := 4095 } : State).pc.toNat) :=
  ⟨⟨loaded_fetches 0x8128, rfl, by decide⟩, rfl, rfl, by decide⟩
theorem witness_BlockedCyclesOnlyRunTheTimers :
    (({ State.reset with fault := true } : State).fault = true) ∧
    (({ State.reset with runState := .awaitingKey } : State).runState = .awaitingKey) := ⟨rfl, rfl⟩
theorem witness_UnrecognisedWordIsALivelock :
    (loaded 0x8128).Fetches ∧ (loaded 0x8128).cfg.strictDecode = false ∧
    decodeWord (loaded 0x8128).fetchWord = .error (.unrecognised 0x8128) := ⟨loaded_fetches _, rfl, by decide⟩
theorem witness_ParkedProgramStaysParked : (loaded 0x1200).Parked ∧ (loaded 0x1200).runState = .running :=
  ⟨⟨by decide, by decide, rfl⟩, rfl⟩
theorem witness_CallPushesTheReturnAddress :
    ({ State.reset with stack := List.replicate 15 0x0202 } : State).sp < State.reset.cfg.stackDepth := by decide
theorem witness_ReturnPopsTheNewestEntry :
    ({ State.reset with stack := [0x0300, 0x0456] } : State).stack = [0x0300] ++ [0x0456] := rfl
theorem witness_FullAndEmptyStacksFault :
    ({ State.reset with stack := List.replicate 16 0x0202 } : State).sp = State.reset.cfg.stackDepth ∧
    State.reset.sp = 0 := by decide
theorem witness_CallThenReturnComesBack : State.reset.sp < State.reset.cfg.stackDepth := by decide
theorem witness_ImmediateSkips : State.reset.reg 3 = 0 ∧ State.reset.reg 3 ≠ 0xFF := by decide
theorem witness_RegisterSkips :
    State.reset.reg 1 = State.reset.reg 2 ∧ (withRegs State.reset [(1, 7)]).reg 1 ≠ (withRegs State.reset [(1, 7)]).reg 2 := by
  decide
theorem witness_KeySkips :
    (State.reset.reg 4).toNat = (0 : Fin 16).val ∧ ((withRegs State.reset [(4, 15)]).reg 4).toNat = (15 : Fin 16).val ∧
    15 < ((withRegs State.reset [(4, 16)]).reg 4).toNat := by decide
theorem witness_AddWithCarry_flag_register : (1 : Reg) ≠ 15 ∧ (2 : Reg) ≠ 15 ∧ (2 : Reg) ≠ 1 := by decide
theorem witness_DrawFlipsTheSpriteCells :
    DrawFits (sprite 0xD011 [0xFF] [(0, 56), (1, 31)]) 0 1 1 ∧ DrawFits { State.reset with index := 0xFFFF } 0 1 0 ∧
    DrawFits { State.reset with index := 4081 } 0 1 15 ∧ (cell (blankScreen.set 1 4) 66 = true) ∧
    SpriteOn (sprite 0xD012 [0xC3, 0x81] [(0, 2), (1, 1)]) 0 1 2 66 :=
  ⟨fun _ => by decide, fun h => absurd h (by decide), fun _ => by decide, by decide, 0, by decide, 0, by decide, by decide,
    by decide⟩
theorem witness_DrawOutOfRangeFaults :
    4095 < ({ State.reset with index := 4095 } : State).index.toNat + 2 - 1 ∧
    ((sprite 0xD011 [0xFF] [(0, 57), (1, 31)]).index.toNat + 1 - 1 ≤ 4095 ∧
      2047 < ((sprite 0xD011 [0xFF] [(0, 57), (1, 31)]).reg 0).toNat + 7 +
        (((sprite 0xD011 [0xFF] [(0, 57), (1, 31)]).reg 1).toNat + 1 - 1) * 64) := by decide
theorem witness_DrawingTwiceRestoresTheScreen :
    (0 : Reg) ≠ 15 ∧ (1 : Reg) ≠ 15 ∧ DrawFits (sprite 0xD012 [0xC3, 0x81] [(0, 2), (1, 1)]) 0 1 2 ∧
    (∃ j, SpriteOn (sprite 0xD012 [0xC3, 0x81] [(0, 2), (1, 1)]) 0 1 2 j) ∧
    (∀ j, SpriteOn (sprite 0xD012 [0xC3, 0x81] [(0, 2), (1, 1)]) 0 1 2 j →
      cell (sprite 0xD012 [0xC3, 0x81] [(0, 2), (1, 1)]).fb j = false) :=
  ⟨by decide, by decide, fun _ => by decide,
    ⟨66, witness_DrawFlipsTheSpriteCells.2.2.2.2⟩, fun j _ => cell_blankScreen j⟩
theorem witness_TimerWritesLagByTheirOwnCycle :
    (loaded 0xF015).Fetches ∧ decodeWord (loaded 0xF015).fetchWord = .ok (.ldDtVx 0) ∧
    (loaded 0xF018).Fetches ∧ decodeWord (loaded 0xF018).fetchWord = .ok (.ldStVx 0) ∧ (loaded 0xF018).reg 0 ≠ 1 ∧
    (withRegs (loaded 0xF018) [(0, 1)]).reg 0 = 1 ∧
    (loaded 0xF007).Fetches ∧ decodeWord (loaded 0xF007).fetchWord = .ok (.ldVxDt 0) :=
  ⟨loaded_fetches _, by decide, loaded_fetches _, by decide, by decide, by decide, loaded_fetches _, by decide⟩
theorem witness_KeyPressEndsTheWait :
    ({ State.reset with runState := .awaitingKey, waitReg := 15 } : State).runState = .awaitingKey ∧
    State.reset.runState = .running := ⟨rfl, rfl⟩
theorem witness_KeyWaitRoundTrip :
    (loaded 0xF10A).Fetches ∧ decodeWord (loaded 0xF10A).fetchWord = .ok (.ldVxK 1) := ⟨loaded_fetches _, by decide⟩
theorem witness_DecimalDigitsAreStored : ({ State.reset with index := 4093 } : State).index.toNat + 2 ≤ 4095 := by decide
theorem witness_RegistersAreStored :
    ({ State.reset with index := 4080 } : State).index.toNat + (15 : Reg).val ≤ 4095 ∧
    ({ State.reset with index := 4095 } : State).index.toNat + (0 : Reg).val ≤ 4095 := by decide
theorem witness_RegistersAreLoaded :
    ({ State.reset with index := 4080 } : State).index.toNat + (15 : Reg).val ≤ 4095 := by decide
theorem witness_DumpThenLoadGivesTheRegistersBack :
    ({ State.reset with index := 4092 } : State).index.toNat + (3 : Reg).val ≤ 4095 := by decide
theorem witness_MemoryBlocksOutOfRangeFault :
    4095 < ({ State.reset with index := 4094 } : State).index.toNat + 2 ∧
    4095 < ({ State.reset with index := 4081 } : State).index.toNat + (15 : Reg).val ∧
    4095 < ({ State.reset with index := 0xFFFF } : State).index.toNat + (0 : Reg).val := by decide
theorem witness_StoresAreSeenByTheNextFetch :
    ({ loaded 0xF155 with index := 0x202 } : State).Fetches ∧
    decodeWord ({ loaded 0xF155 with index := 0x202 } : State).fetchWord = .ok (.ldMemVx 1) ∧ 1 ≤ (1 : Reg).val ∧
    ({ loaded 0xF155 with index := 0x202 } : State).index.toNat =
      ({ loaded 0xF155 with index := 0x202 } : State).pc.toNat + 2 ∧
    ({ loaded 0xF155 with index := 0x202 } : State).index.toNat + (1 : Reg).val ≤ 4095 :=
  ⟨loaded_fetches 0xF155, by decide, by decide, by decide, by decide⟩
theorem witness_OnlyDrawingTouchesTheScreen :
    (∃ t, exec (.jpNnn 0) State.reset = .next t) ∧ Instr.jpNnn 0 ≠ .cls ∧ ∀ x y n, Instr.jpNnn 0 ≠ .drwVxVyN x y n :=
  ⟨⟨_, rfl⟩, by decide, fun _ _ _ h => (by cases h)⟩
theorem witness_OnlyTheirInstructionsTouchStackAndMemory :
    (∃ t, exec (.ldBVx 0) { State.reset with index := 4093 } = .next t) ∧ (∀ nnn, Instr.ldBVx 0 ≠ .callNnn nnn) ∧
    (∃ t, exec .ret { State.reset with stack := [0x202] } = .next t) ∧ (∀ x, Instr.ret ≠ .ldMemVx x) :=
  ⟨exec_total _ _, fun _ h => (by cases h), exec_total _ _, fun _ h => (by cases h)⟩
theorem witness_OnlyTheirInstructionsTouchRegistersAndIndex :
    (∃ t, exec (.addVxVy 1 2) State.reset = .next t) ∧ mayWrite (.addVxVy 1 2) 2 = false ∧
    (∀ x, Instr.addVxVy 1 2 ≠ .addIVx x) := ⟨⟨_, rfl⟩, by decide, fun _ h => (by cases h)⟩
theorem witness_OnlyTheirInstructionsTouchControlState :
    (∃ t, exec (.ldDtVx 1) State.reset = .next t) ∧ (∀ x, Instr.ldDtVx 1 ≠ .ldStVx x) ∧ (∀ x, Instr.ldDtVx 1 ≠ .ldVxK x) :=
  ⟨⟨_, rfl⟩, fun _ h => (by cases h), fun _ h => (by cases h)⟩
theorem witness_NoInstructionReadsTheSoundTimer :
    (∃ t, exec (.ldVxDt 1) State.reset = .next t) ∧ (∀ x, Instr.ldVxDt 1 ≠ .ldStVx x) ∧
    (∃ t, exec (.ldStVx 1) State.reset = .next t) := ⟨⟨_, rfl⟩, fun _ h => (by cases h), _, rfl⟩
theorem witness_OnlyRndDrawsARandomByte :
    (∀ x nn, Instr.cls ≠ .rndVxNn x nn) ∧ ∃ t, exec .cls State.reset = .next t := ⟨fun _ _ h => (by cases h), _, rfl⟩
theorem witness_FaultsFollowTheTableAndArePrecise :
    faultOf .ret State.reset = some (.stackUnderflow, 0x200) ∧
    faultOf (.callNnn 0x300) { State.reset with stack := List.replicate 16 0 } = some (.stackOverflow, 0x200) ∧
    faultOf (.skpVx 4) (withRegs State.reset [(4, 16)]) = some (.keyIndexOutOfRange, 16) ∧
    faultOf (.ldBVx 0) { State.reset with index := 4094 } = some (.memoryOutOfRange, 4096) ∧
    faultOf (.drwVxVyN 0 1 15) (withRegs State.reset [(0, 255), (1, 255)]) = some (.framebufferOutOfRange, 17478) ∧
    faultOf (.drwVxVyN 0 1 0) { State.reset with index := 0xFFFF } = none := by decide
theorem witness_LatchedFaultIsSticky :
    HostOp.step ≠ .reset ∧ ({ State.reset with fault := true } : State).fault = true ∧
    ∃ t, perform (.keyPress 1) { State.reset with fault := true } = .next t := ⟨by decide, rfl, _, rfl⟩

/-- A state in the middle of a program that satisfies the invariant: a program in memory, a return address on the stack. -/
theorem witness_Inv : State.Inv { loaded 0x00EE with stack := [0x0206] } where
  memory := Memory.writeBytes_wf 0x200 [0x00, 0xEE] (Memory.wf_nil _)
  stack := show 1 ≤ 16 by decide
  returns := fun a ha => by rw [List.mem_singleton.1 ha]; decide
  pc := show (0x200 : Word).toNat ≤ 0x10FE by decide
  cause := ⟨fun _ => rfl, fun _ => rfl⟩
  info := fun _ => rfl
  strict := fun h => (by cases h)
  exclusive := fun _ => rfl

theorem witness_EveryStepKeepsTheInvariant :
    State.Inv { loaded 0x00EE with stack := [0x0206] } ∧ ∃ t, step { loaded 0x00EE with stack := [0x0206] } = .next t :=
  ⟨witness_Inv, _, step_of_phase (instructionPhase_total _).choose_spec⟩
theorem witness_EveryExecutionKeepsTheInvariant : State.Inv { loaded 0x00EE with stack := [0x0206] } := witness_Inv
theorem witness_ResetLeavesItsValues : (79 : Nat) < 80 ∧ 80 ≤ (4095 : Nat) := by decide
theorem witness_LoadRomCopiesOrRefuses :
    (List.replicate 3584 (0 : Byte)).length ≤ 3584 ∧ 3584 < (List.replicate 3585 (0 : Byte)).length := by
  rw [List.length_replicate, List.length_replicate]; decide

end Sys2Proof.Tests
end

/-! # The family 00_scope: noninterference of the draw counter, and the invariant along every execution -/

namespace Sys2Proof.Machine

/-! ## The draw counter is read by CXNN only (R8, R134; log entry 3)

Setting the counter commutes with every shared operation and so with every meaning but CXNN's. -/

/-- `s` with another draw counter. -/
def State.withDraws (k : Nat) (s : State) : State := { s with draws := k }

/-- An answer with its next state changed by `f`, for saying that a change of the state commutes with a meaning. -/
def onNext (f : State → State) : Answer → Answer
  | .next t => .next (f t)
  | .fault r => .fault r
  | .refused r => .refused r

@[simp] theorem onNext_next (f : State → State) (t : State) : onNext f (.next t) = .next (f t) := rfl

@[simp] theorem State.withDraws_draws (s : State) : s.withDraws s.draws = s := rfl

theorem State.checkMemory_withDraws {s : State} {k len : Nat} {a b : Answer} (hab : b = onNext (State.withDraws k) a) :
    (s.withDraws k).checkMemory len b = onNext (State.withDraws k) (s.checkMemory len a) := by
  unfold State.checkMemory
  rw [hab, apply_ite (onNext (State.withDraws k))]
  rfl

theorem State.skipOnKey_withDraws (s : State) (k : Nat) (b : Byte) (held : Bool) :
    (s.withDraws k).skipOnKey b held = onNext (State.withDraws k) (s.skipOnKey b held) := by
  unfold State.skipOnKey
  rw [apply_ite (onNext (State.withDraws k))]
  rfl

theorem State.push_withDraws (s : State) (k : Nat) (a : Word) :
    (s.withDraws k).push a = (s.push a).map (State.withDraws k) := by
  unfold State.push
  rw [apply_ite (Option.map (State.withDraws k))]
  rfl

theorem execCallNnn_withDraws (nnn : Addr) (s : State) (k : Nat) :
    execCallNnn nnn (s.withDraws k) = onNext (State.withDraws k) (execCallNnn nnn s) := by
  unfold execCallNnn
  rw [State.push_withDraws, show (s.withDraws k).pc = s.pc from rfl]
  cases s.push (s.pc + 2) <;> rfl

theorem execRet_withDraws (s : State) (k : Nat) :
    execRet (s.withDraws k) = onNext (State.withDraws k) (execRet s) := by
  rcases List.eq_nil_or_concat' s.stack with hnil | ⟨rest, a, hs⟩
  · rw [execRet, execRet, State.pop_empty s hnil, State.pop_empty (s.withDraws k) hnil]
    rfl
  · rw [execRet, execRet, State.pop_append s rest a hs, State.pop_append (s.withDraws k) rest a hs]
    rfl

theorem execDrwVxVyN_withDraws (x y : Reg) (n : Nat) (s : State) (k : Nat) :
    execDrwVxVyN x y n (s.withDraws k) = onNext (State.withDraws k) (execDrwVxVyN x y n s) := by
  refine State.checkMemory_withDraws ?_
  rw [apply_ite (onNext (State.withDraws k))]
  rfl

/-- Every instruction but CXNN does the same whatever the draw counter is. -/
theorem exec_withDraws {i : Instr} (hi : ∀ x nn, i ≠ .rndVxNn x nn) (s : State) (k : Nat) :
    exec i (s.withDraws k) = onNext (State.withDraws k) (exec i s) := by
  cases i
  case rndVxNn x nn => exact absurd rfl (hi x nn)
  case callNnn nnn => exact execCallNnn_withDraws nnn s k
  case ret => exact execRet_withDraws s k
  case drwVxVyN x y n => exact execDrwVxVyN_withDraws x y n s k
  case skpVx x => exact s.skipOnKey_withDraws k (s.reg x) true
  case sknpVx x => exact s.skipOnKey_withDraws k (s.reg x) false
  case ldBVx | ldMemVx | ldVxMem => exact State.checkMemory_withDraws rfl
  -- The others end in one way, and write what they write from parts that the counter is not among.
  all_goals rfl

/-- Settles O51: setting the counter commutes with the instruction. That the counter is left as it was is the case in which
it is set to the value it has. -/
theorem onlyRndDrawsARandomByte : Obligations.OnlyRndDrawsARandomByte := by
  intro i k s t hi he
  have commutes : ∀ k, exec i (s.withDraws k) = .next (t.withDraws k) := fun k => by
    rw [exec_withDraws hi, he, onNext_next]
  have hsame : t = t.withDraws s.draws := by simpa [he] using commutes s.draws
  exact ⟨(congrArg State.draws hsame :), commutes k⟩

/-! ## The invariant, with the parameters fixed

`InvAt c` adds to `State.Inv` that the parameters are `c`, so that one induction gives both halves of the statement. One rule
per way in which the machine writes what the invariant speaks of. -/

/-- The invariant, in a machine with the parameters `c`. -/
def State.InvAt (c : Config) (s : State) : Prop := s.Inv ∧ s.cfg = c

/-- The parts of the state that the invariant speaks of. -/
def State.invParts (s : State) : Config × Word × List Word × Memory × RunState × Bool × FaultCause × Word :=
  (s.cfg, s.pc, s.stack, s.mem, s.runState, s.fault, s.faultCause, s.faultInfo)

section
variable {c : Config} {s t : State}

/-- A change of the other parts keeps the invariant. -/
theorem State.InvAt.of_same (h : s.InvAt c) (hts : t.invParts = s.invParts) : t.InvAt c := by
  simp only [State.invParts, Prod.mk.injEq] at hts
  obtain ⟨hcfg, hpc, hstack, hmem, hrun, hfault, hcause, hinfo⟩ := hts
  obtain ⟨hinv, hc⟩ := h
  refine ⟨?_, hcfg.trans hc⟩
  constructor <;> simp only [State.sp, hcfg, hpc, hstack, hmem, hrun, hfault, hcause, hinfo]
  exacts [hinv.memory, hinv.stack, hinv.returns, hinv.pc, hinv.cause, hinv.info, hinv.strict, hinv.exclusive]

theorem State.InvAt.jump (h : s.InvAt c) {a : Word} (ha : a.toNat ≤ 0x10FE) : State.InvAt c { s with pc := a } :=
  ⟨{ h.1 with pc := ha }, h.2⟩

theorem State.InvAt.advance (h : s.InvAt c) (hpc : s.pc.toNat ≤ 4094) {k : Word} (hk : k.toNat ≤ 4) :
    (s.advance k).InvAt c :=
  h.jump (by rw [BitVec.toNat_add]; omega)

/-- A change of the other parts, and then on to the next word (R108). -/
theorem State.InvAt.next (h : s.InvAt c) (hts : t.invParts = s.invParts) (hpc : s.pc.toNat ≤ 4094) :
    (t.advance 2).InvAt c := by
  have htpc : t.pc = s.pc := congrArg (fun p => p.2.1) hts
  exact (h.of_same hts).advance (htpc ▸ hpc) (by decide)

theorem State.InvAt.skipIf (h : s.InvAt c) (hpc : s.pc.toNat ≤ 4094) (b : Bool) : (s.skipIf b).InvAt c :=
  h.advance hpc (by cases b <;> decide)

theorem State.InvAt.storeBytes (h : s.InvAt c) (a : Nat) (bytes : List Byte) : (s.storeBytes a bytes).InvAt c :=
  ⟨{ h.1 with memory := Memory.writeBytes_wf a bytes h.1.memory }, h.2⟩

theorem State.InvAt.push (h : s.InvAt c) (hroom : s.sp < s.cfg.stackDepth) {a : Word} (ha : a.toNat ≤ 4096) :
    State.InvAt c { s with stack := s.stack ++ [a] } := by
  refine ⟨{ h.1 with stack := ?_, returns := ?_ }, h.2⟩
  · show (s.stack ++ [a]).length ≤ s.cfg.stackDepth
    rw [List.length_append]
    exact hroom
  · intro b hb
    rcases List.mem_append.mp hb with hb | hb
    · exact h.1.returns b hb
    · exact List.mem_singleton.mp hb ▸ ha

theorem State.InvAt.pop (h : s.InvAt c) {rest : List Word} {a : Word} (hs : s.stack = rest ++ [a]) :
    State.InvAt c { s with stack := rest } := by
  refine ⟨{ h.1 with stack := ?_, returns := fun b hb => h.1.returns b (by simp [hs, hb]) }, h.2⟩
  have hlen : s.stack.length = rest.length + 1 := by simp [hs]
  exact le_trans (by simp [State.sp, hlen]) h.1.stack

/-- A running machine latches a fault: the cause is no "no fault", and is the illegal word under `STRICT_DECODE` only. -/
theorem State.InvAt.raise (h : s.InvAt c) (hrun : s.runState = .running) {cause : FaultCause} (info : Nat)
    (hcause : cause ≠ .none) (hstrict : cause ≠ .illegalInstruction ∨ s.cfg.strictDecode = true) :
    (s.raise cause info).InvAt c :=
  ⟨{ h.1 with
      cause := by simp [hcause]
      info := fun hfault => absurd hfault (by simp)
      strict := fun hill => hstrict.resolve_left (not_not_intro hill)
      exclusive := fun _ => hrun }, h.2⟩

theorem State.InvAt.await (h : s.InvAt c) (hfault : s.fault = false) (x : Reg) :
    State.InvAt c { s with runState := .awaitingKey, waitReg := x } :=
  ⟨{ h.1 with exclusive := fun hf => absurd (hfault.symm.trans hf) (by decide) }, h.2⟩

theorem State.InvAt.resume (h : s.InvAt c) : State.InvAt c { s with runState := .running } :=
  ⟨{ h.1 with exclusive := fun _ => rfl }, h.2⟩

end

theorem addrWord_toNat_le (nnn : Addr) : (addrWord nnn).toNat ≤ 0xFFF := by
  rw [addrWord, BitVec.toNat_setWidth]
  omega

theorem byteWord_toNat_le (b : Byte) : (byteWord b).toNat ≤ 0xFF := by
  rw [byteWord, BitVec.toNat_setWidth]
  omega

section
variable {c : Config} {s t : State}

/-- Every instruction that a cycle executes keeps the invariant. -/
theorem exec_invAt {i : Instr} (hf : s.Fetches) (h : s.InvAt c) (he : exec i s = .next t) : t.InvAt c := by
  obtain ⟨hfault, hrun, hpc⟩ := hf
  cases i
  case callNnn nnn =>
    rcases execCallNnn_cases he with ⟨-, rfl⟩ | ⟨hroom, rfl⟩
    · exact h.raise hrun _ (by decide) (.inl (by decide))
    · have hret : (s.pc + 2).toNat ≤ 4096 := by bv_omega
      exact (h.push hroom hret).jump ((addrWord_toNat_le nnn).trans (by decide))
  case ret =>
    rcases execRet_cases he with ⟨-, rfl⟩ | ⟨rest, a, hs, rfl⟩
    · exact h.raise hrun _ (by decide) (.inl (by decide))
    · have ha : a.toNat ≤ 4096 := h.1.returns a (by simp [hs])
      exact (h.pop hs).jump (ha.trans (by decide))
  case drwVxVyN x y n =>
    rcases execDrwVxVyN_cases he with ⟨-, -, rfl⟩ | ⟨-, -, -, rfl⟩ | ⟨-, -, drawn, hit, -, rfl⟩
    · exact h.raise hrun _ (by decide) (.inl (by decide))
    · exact h.raise hrun _ (by decide) (.inl (by decide))
    · exact h.next rfl hpc
  case skpVx | sknpVx =>
    rcases State.skipOnKey_cases he with ⟨-, rfl⟩ | ⟨-, rfl⟩
    · exact h.raise hrun _ (by decide) (.inl (by decide))
    · exact h.skipIf hpc _
  case ldBVx | ldMemVx =>
    rcases State.checkMemory_cases he with ⟨-, -, rfl⟩ | ⟨-, he⟩
    · exact h.raise hrun _ (by decide) (.inl (by decide))
    · obtain rfl := Host.Outcome.next.inj he
      exact (h.storeBytes _ _).next rfl hpc
  case ldVxMem x =>
    rcases State.checkMemory_cases he with ⟨-, -, rfl⟩ | ⟨-, he⟩
    · exact h.raise hrun _ (by decide) (.inl (by decide))
    · obtain rfl := Host.Outcome.next.inj he
      exact h.next rfl hpc
  all_goals obtain rfl := Host.Outcome.next.inj he
  case jpNnn nnn => exact h.jump ((addrWord_toNat_le nnn).trans (by decide))
  case jpV0Nnn nnn =>
    refine h.jump ?_
    have hnnn := addrWord_toNat_le nnn
    have hv0 := byteWord_toNat_le (s.reg 0)
    rw [BitVec.toNat_add]
    omega
  case seVxNn | sneVxNn | seVxVy | sneVxVy => exact h.skipIf hpc _
  case ldVxK x => exact (h.await hfault x).next rfl hpc
  -- The others write parts that the invariant does not speak of, and go on to the next word.
  all_goals exact h.next rfl hpc

theorem State.InvAt.unrecognisedWord (h : s.InvAt c) (hrun : s.runState = .running) (w : Word) :
    (s.unrecognisedWord w).InvAt c := by
  unfold State.unrecognisedWord
  split_ifs with hstrict
  · exact h.raise hrun _ (by decide) (.inr hstrict)
  · exact h

theorem instructionPhase_invAt (h : s.InvAt c) (hp : instructionPhase s = .next t) : t.InvAt c := by
  rcases instructionPhase_cases hp with ⟨-, rfl⟩ | ⟨hfree, -, rfl⟩ | ⟨hf, i, -, he⟩ | ⟨hf, -, rfl⟩
  · exact h
  · have hrun : s.runState = .running := by
      cases hr : s.runState with
      | running => rfl
      | awaitingKey => exact absurd (s.blocked_iff.mpr (.inr hr)) (by simp [hfree])
    exact h.raise hrun _ (by decide) (.inl (by decide))
  · exact exec_invAt hf h he
  · exact h.unrecognisedWord hf.2.1 _

/-- Every step completes and keeps the invariant. -/
theorem step_invAt (h : s.InvAt c) : ∃ t, step s = .next t ∧ t.InvAt c := by
  obtain ⟨t, hp⟩ := instructionPhase_total s
  exact ⟨t.timerPhase, step_of_phase hp,
    (instructionPhase_invAt h hp).of_same rfl⟩

/-! ## The host's operations -/

theorem hostReset_invAt (h : s.InvAt c) : (hostReset s).InvAt c where
  left :=
    { memory := Memory.wf_nil _
      stack := Nat.zero_le _
      returns := fun _ ha => absurd ha List.not_mem_nil
      pc := show (0x200 : Word).toNat ≤ 0x10FE by decide
      cause := ⟨fun _ => rfl, fun _ => rfl⟩
      info := fun _ => rfl
      strict := fun hc => nomatch hc
      exclusive := fun _ => rfl }
  right := h.2

theorem loadRom_invAt (h : s.InvAt c) (image : List Byte) : (loadRom image s).InvAt c := by
  unfold loadRom
  split
  · exact h.storeBytes _ _
  · exact h

theorem keyPress_invAt (h : s.InvAt c) (k : Key) : (keyPress k s).InvAt c := by
  unfold keyPress
  split
  · exact h.resume.of_same rfl
  · exact h.of_same rfl

/-- Every host operation completes and keeps the invariant. -/
theorem perform_invAt (h : s.InvAt c) (op : HostOp) : ∃ t, perform op s = .next t ∧ t.InvAt c := by
  cases op with
  | reset => exact ⟨_, rfl, hostReset_invAt h⟩
  | loadRom image => exact ⟨_, rfl, loadRom_invAt h image⟩
  | step => exact step_invAt h
  | keyPress k => exact ⟨_, rfl, keyPress_invAt h k⟩
  | keyRelease | takeDrawReady | takeBuzzReady =>
    exact ⟨_, rfl, h.of_same rfl⟩
  | fbRead | status => exact ⟨s, rfl, h⟩

theorem performAll_invAt (ops : List HostOp) (h : s.InvAt c) : ∃ t, performAll ops s = .next t ∧ t.InvAt c := by
  induction ops generalizing s with
  | nil => exact ⟨s, performAll_nil s, h⟩
  | cons op ops ih =>
    obtain ⟨t, hperf, ht⟩ := perform_invAt h op
    rw [performAll_cons hperf]
    exact ih ht

end

/-- Settles O56, by induction on the list of operations: each completes and keeps the invariant and the parameters. -/
theorem everyExecutionKeepsTheInvariant : Obligations.EveryExecutionKeepsTheInvariant :=
  fun ops _ hs => performAll_invAt ops ⟨hs, rfl⟩

end Sys2Proof.Machine

/-! # The family 10_state: what an instruction touches, what it reads, and the invariant after a step -/

namespace Sys2Proof.Machine

/-! ## The parts an instruction touches

One frame for the whole instruction set: the next state is the old one with the parts that the instruction touches taken from
the next state. It is exact, where `ChangesOnly` compares memory and the screen by their reads only. -/

/-- `s` with the parts `parts` taken from `t`. -/
def State.withParts (s : State) (parts : List Part) (t : State) : State where
  cfg := if .parameters ∈ parts then t.cfg else s.cfg
  v := if .registers ∈ parts then t.v else s.v
  index := if .index ∈ parts then t.index else s.index
  pc := if .pc ∈ parts then t.pc else s.pc
  stack := if .stack ∈ parts then t.stack else s.stack
  mem := if .memory ∈ parts then t.mem else s.mem
  fb := if .screen ∈ parts then t.fb else s.fb
  dt := if .delayTimer ∈ parts then t.dt else s.dt
  st := if .soundTimer ∈ parts then t.st else s.st
  key := if .keys ∈ parts then t.key else s.key
  drawReady := if .drawReady ∈ parts then t.drawReady else s.drawReady
  buzzReady := if .buzzReady ∈ parts then t.buzzReady else s.buzzReady
  runState := if .waiting ∈ parts then t.runState else s.runState
  waitReg := if .waiting ∈ parts then t.waitReg else s.waitReg
  fault := if .faultLatch ∈ parts then t.fault else s.fault
  faultCause := if .faultLatch ∈ parts then t.faultCause else s.faultCause
  faultInfo := if .faultLatch ∈ parts then t.faultInfo else s.faultInfo
  draws := if .draws ∈ parts then t.draws else s.draws

/-- The parts an instruction may change, its faults included. -/
def touchedBy (i : Instr) : List Part :=
  match i with
  | .cls => [.screen, .drawReady, .pc]
  | .ret | .callNnn _ => [.stack, .pc, .faultLatch]
  | .jpNnn _ | .jpV0Nnn _ | .seVxNn _ _ | .sneVxNn _ _ | .seVxVy _ _ _ | .sneVxVy _ _ _ => [.pc]
  | .skpVx _ | .sknpVx _ => [.pc, .faultLatch]
  | .ldVxNn _ _ | .addVxNn _ _ | .ldVxVy _ _ | .orVxVy _ _ | .andVxVy _ _ | .xorVxVy _ _ | .addVxVy _ _ | .subVxVy _ _
  | .shrVx _ _ | .subnVxVy _ _ | .shlVx _ _ | .ldVxDt _ => [.registers, .pc]
  | .rndVxNn _ _ => [.registers, .draws, .pc]
  | .addIVx _ => [.registers, .index, .pc]
  | .ldINnn _ | .ldFVx _ => [.index, .pc]
  | .drwVxVyN _ _ _ => [.registers, .screen, .drawReady, .pc, .faultLatch]
  | .ldVxK _ => [.waiting, .pc]
  | .ldDtVx _ => [.delayTimer, .pc]
  | .ldStVx _ => [.soundTimer, .pc]
  | .ldBVx _ | .ldMemVx _ => [.memory, .pc, .faultLatch]
  | .ldVxMem _ => [.registers, .pc, .faultLatch]

section
variable {i : Instr} {s t : State}

/-- An instruction changes no part but those it touches. -/
theorem exec_frame (he : exec i s = .next t) : t = s.withParts (touchedBy i) t := by
  cases i
  case callNnn nnn => rcases execCallNnn_cases he with ⟨-, rfl⟩ | ⟨-, rfl⟩ <;> rfl
  case ret => rcases execRet_cases he with ⟨-, rfl⟩ | ⟨rest, a, -, rfl⟩ <;> rfl
  case drwVxVyN x y n =>
    rcases execDrwVxVyN_cases he with ⟨-, -, rfl⟩ | ⟨-, -, -, rfl⟩ | ⟨-, -, drawn, hit, -, rfl⟩ <;> rfl
  case skpVx | sknpVx => rcases State.skipOnKey_cases he with ⟨-, rfl⟩ | ⟨-, rfl⟩ <;> rfl
  case ldBVx | ldMemVx | ldVxMem =>
    rcases State.checkMemory_cases he with ⟨-, -, rfl⟩ | ⟨-, he⟩
    · rfl
    · obtain rfl := Host.Outcome.next.inj he
      rfl
  all_goals
    obtain rfl := Host.Outcome.next.inj he
    rfl

end

/-- Settles O46: no instruction touches `buzz_ready`, and none but 00E0 and DXYN the screen and `draw_ready`. -/
theorem onlyDrawingTouchesTheScreen : Obligations.OnlyDrawingTouchesTheScreen := by
  intro i s t he
  have frame := exec_frame he
  refine ⟨by cases i <;> exact (congrArg State.buzzReady frame :), fun hcls hdrw => ?_⟩
  cases i
  case cls => exact absurd rfl hcls
  case drwVxVyN x y n => exact absurd rfl (hdrw x y n)
  all_goals exact ⟨(congrArg State.fb frame :), (congrArg State.drawReady frame :)⟩

/-- Settles O47: the stack is touched by 2NNN and 00EE only, memory by FX33 and FX55 only. -/
theorem onlyTheirInstructionsTouchStackAndMemory : Obligations.OnlyTheirInstructionsTouchStackAndMemory := by
  intro i s t he
  have frame := exec_frame he
  refine ⟨fun hcall hret => ?_, fun hldB hldMem => ?_⟩
  · cases i
    case callNnn nnn => exact absurd rfl (hcall nnn)
    case ret => exact absurd rfl hret
    all_goals exact (congrArg State.stack frame :)
  · cases i
    case ldBVx x => exact absurd rfl (hldB x)
    case ldMemVx x => exact absurd rfl (hldMem x)
    all_goals exact (congrArg State.mem frame :)

/-- Settles O49: no instruction touches the keys or the parameters, and DT, ST and the wait have one writer each. -/
theorem onlyTheirInstructionsTouchControlState : Obligations.OnlyTheirInstructionsTouchControlState := by
  intro i s t he
  have frame := exec_frame he
  refine ⟨by cases i <;> exact (congrArg State.key frame :), by cases i <;> exact (congrArg State.cfg frame :),
    fun hdt => ?_, fun hst => ?_, fun hwait => ?_⟩
  · cases i
    case ldDtVx x => exact absurd rfl (hdt x)
    all_goals exact (congrArg State.dt frame :)
  · cases i
    case ldStVx x => exact absurd rfl (hst x)
    all_goals exact (congrArg State.st frame :)
  · cases i
    case ldVxK x => exact absurd rfl (hwait x)
    all_goals exact ⟨(congrArg State.runState frame :), (congrArg State.waitReg frame :)⟩

/-! ## The registers an instruction writes (R10, R11) -/

section
variable {s t : State} {x j : Reg}

theorem State.reg_setReg_of_ne (hj : (j == x) = false) (b : Byte) : (s.setReg x b).reg j = s.reg j := by
  rw [State.reg_setReg, if_neg (beq_eq_false_iff_ne.mp hj)]

theorem State.reg_flagThenResult_of_ne (hj : (j == x || j == flagReg) = false) (flag : Bool) (result : State → Byte) :
    (s.flagThenResult x flag result).reg j = s.reg j := by
  obtain ⟨hx, hflag⟩ := Bool.or_eq_false_iff.mp hj
  rw [State.flagThenResult, State.reg_setReg_of_ne hx, State.setFlag_eq, State.reg_setReg_of_ne hflag]

theorem State.getElem_loadBlock_of_lt (hj : x < j) : (s.loadBlock x)[j] = s.reg j := by
  simp [State.loadBlock, State.reg, hj]

/-- An instruction keeps every register that it is not listed to write. -/
theorem exec_reg_of_not_mayWrite {i : Instr} (he : exec i s = .next t) (hj : mayWrite i j = false) : t.reg j = s.reg j := by
  have frame := exec_frame he
  cases i
  case drwVxVyN x y n =>
    rcases execDrwVxVyN_cases he with ⟨-, -, rfl⟩ | ⟨-, -, -, rfl⟩ | ⟨-, -, drawn, hit, -, rfl⟩
    · rfl
    · rfl
    · exact State.reg_setReg_of_ne hj _
  case ldVxMem x =>
    rcases State.checkMemory_cases he with ⟨-, -, rfl⟩ | ⟨-, he⟩
    · rfl
    · obtain rfl := Host.Outcome.next.inj he
      exact State.getElem_loadBlock_of_lt (not_le.mp (of_decide_eq_false hj))
  case ldVxNn | addVxNn | ldVxVy | orVxVy | andVxVy | xorVxVy | rndVxNn | ldVxDt | addIVx =>
    obtain rfl := Host.Outcome.next.inj he
    exact State.reg_setReg_of_ne hj _
  case addVxVy | subVxVy | shrVx | subnVxVy | shlVx =>
    obtain rfl := Host.Outcome.next.inj he
    exact (State.reg_advance _ 2 j).trans (State.reg_flagThenResult_of_ne hj _ _)
  -- The others do not touch the registers.
  all_goals exact (congrArg (State.reg · j) frame :)

end

/-- Settles O48: the registers by `exec_reg_of_not_mayWrite`, `I` by the frame. -/
theorem onlyTheirInstructionsTouchRegistersAndIndex : Obligations.OnlyTheirInstructionsTouchRegistersAndIndex := by
  intro i s t he
  have frame := exec_frame he
  refine ⟨fun j hj => exec_reg_of_not_mayWrite he hj, fun hldI haddI hldF => ?_⟩
  cases i
  case ldINnn nnn => exact absurd rfl (hldI nnn)
  case addIVx x => exact absurd rfl (haddI x)
  case ldFVx x => exact absurd rfl (hldF x)
  all_goals exact (congrArg State.index frame :)

/-! ## What 2NNN and 00EE answer in each case (R102, R103) -/

section
variable {s : State}

theorem execCallNnn_full (hfull : s.cfg.stackDepth ≤ s.sp) (nnn : Addr) :
    execCallNnn nnn s = .next (s.raise .stackOverflow s.pc.toNat) := by
  rw [execCallNnn, State.push_full _ _ hfull]

theorem execCallNnn_room (hroom : s.sp < s.cfg.stackDepth) (nnn : Addr) :
    execCallNnn nnn s = .next { s with stack := s.stack ++ [s.pc + 2], pc := addrWord nnn } := by
  rw [execCallNnn, State.push_room _ _ hroom]

theorem execRet_empty (hempty : s.sp = 0) : execRet s = .next (s.raise .stackUnderflow s.pc.toNat) := by
  rw [execRet, State.pop_empty _ (List.eq_nil_of_length_eq_zero hempty)]

theorem execRet_append {rest : List Word} {a : Word} (hs : s.stack = rest ++ [a]) :
    execRet s = .next { s with stack := rest, pc := a } := by
  rw [execRet, State.pop_append _ rest a hs]

end

/-! ## A latched fault (R211) -/

theorem State.raise_frame (s : State) (cause : FaultCause) (info : Nat) : ChangesOnly [.faultLatch] s (s.raise cause info) := by
  intro p hp
  cases p
  case faultLatch => exact absurd (List.mem_singleton_self _) hp
  case registers | memory | screen => exact fun _ => rfl
  case waiting => exact ⟨rfl, rfl⟩
  all_goals rfl

/-- Information of 16 bits is recorded as it is. -/
theorem State.raise_latches (s : State) (cause : FaultCause) {info : Nat} (hinfo : info < 2 ^ 16) :
    Latches s (s.raise cause info) cause info :=
  ⟨rfl, rfl, (BitVec.toNat_ofNat ..).trans (Nat.mod_eq_of_lt hinfo), s.raise_frame cause info⟩

/-- Settles O17: both fault and record `pc`, which has 16 bits. -/
theorem fullAndEmptyStacksFault : Obligations.FullAndEmptyStacksFault :=
  ⟨fun nnn s hfull => ⟨_, execCallNnn_full hfull.ge nnn, s.raise_latches _ s.pc.isLt⟩,
    fun s hempty => ⟨_, execRet_empty hempty, s.raise_latches _ s.pc.isLt⟩⟩

/-! ## No instruction reads ST (R18) -/

/-- `s` with another sound timer. -/
def State.withSt (a : Byte) (s : State) : State := { s with st := a }

/-- Every instruction but FX18 does the same whatever ST is, and carries it along: each case of what it can answer is decided
by parts that ST is not among. -/
theorem exec_withSt {i : Instr} {s t : State} (hi : ∀ x, i ≠ .ldStVx x) (he : exec i s = .next t) (a : Byte) :
    exec i (s.withSt a) = .next (t.withSt a) := by
  cases i
  case ldStVx x => exact absurd rfl (hi x)
  case callNnn nnn =>
    rcases execCallNnn_cases he with ⟨hfull, rfl⟩ | ⟨hroom, rfl⟩
    · exact execCallNnn_full (s := s.withSt a) hfull nnn
    · exact execCallNnn_room (s := s.withSt a) hroom nnn
  case ret =>
    rcases execRet_cases he with ⟨hempty, rfl⟩ | ⟨rest, top, hs, rfl⟩
    · exact execRet_empty (s := s.withSt a) hempty
    · exact execRet_append (s := s.withSt a) hs
  case drwVxVyN x y n =>
    rcases execDrwVxVyN_cases he with ⟨hn, hmem, rfl⟩ | ⟨hmem, hn, hcell, rfl⟩ | ⟨hmem, hcell, fb, hit, hfb, rfl⟩
    · exact (s.withSt a).checkMemory_fail n _ ⟨hn, hmem⟩
    · exact ((s.withSt a).checkMemory_pass n _ hmem).trans (if_pos ⟨hn, hcell⟩)
    · obtain ⟨rfl, rfl⟩ := Prod.mk.inj hfb
      exact ((s.withSt a).checkMemory_pass n _ hmem).trans (if_neg hcell)
  case skpVx | sknpVx =>
    rcases State.skipOnKey_cases he with ⟨hk, rfl⟩ | ⟨hk, rfl⟩
    · exact if_pos hk
    · exact if_neg hk.not_gt
  case ldBVx | ldMemVx | ldVxMem =>
    rcases State.checkMemory_cases he with ⟨hlen, hmem, rfl⟩ | ⟨hmem, he⟩
    · exact (s.withSt a).checkMemory_fail _ _ ⟨hlen, hmem⟩
    · obtain rfl := Host.Outcome.next.inj he
      exact (s.withSt a).checkMemory_pass _ _ hmem
  all_goals
    obtain rfl := Host.Outcome.next.inj he
    rfl

/-- Settles O50: by `exec_withSt`, and FX18 overwrites ST. -/
theorem noInstructionReadsTheSoundTimer : Obligations.NoInstructionReadsTheSoundTimer := by
  intro i a s t he
  refine ⟨fun hi => exec_withSt hi he a, ?_⟩
  rintro x rfl
  exact he

/-! ## The invariant after a step -/

/-- Settles O54: the instruction phase keeps the invariant, and the timer phase writes nothing that it speaks of. -/
theorem everyStepKeepsTheInvariant : Obligations.EveryStepKeepsTheInvariant := by
  intro s u hinv hstep
  obtain ⟨t, hphase, rfl⟩ := step_cases hstep
  have ht : t.InvAt s.cfg := instructionPhase_invAt ⟨hinv, rfl⟩ hphase
  exact (ht.of_same (t := t.timerPhase) rfl).1

end Sys2Proof.Machine

/-! # The family 20_memory: a store is seen by the next fetch -/

namespace Sys2Proof.Machine

/-! ## The word at `pc` as a number (R41, R82) -/

theorem wordOfBytes_toNat (hi lo : Byte) : (wordOfBytes hi lo).toNat = hi.toNat * 256 + lo.toNat := by
  have := hi.isLt
  have := lo.isLt
  rw [wordOfBytes, BitVec.toNat_ofNat]
  omega

theorem State.fetchWord_toNat (s : State) :
    s.fetchWord.toNat = (s.byteAt s.pc.toNat).toNat * 256 + (s.byteAt (s.pc.toNat + 1)).toNat :=
  wordOfBytes_toNat _ _

/-! ## The register block of FX55 in memory (R175) -/

section
variable {s : State} {x i : Reg}

@[simp] theorem State.length_regBlock (s : State) (x : Reg) : (s.regBlock x).length = x.val + 1 := by
  have := x.isLt
  rw [State.regBlock, List.length_take, Vector.length_toList]
  omega

theorem State.getElem_regBlock {k : Nat} (hk : k < (s.regBlock x).length) (hki : k = i.val) :
    (s.regBlock x)[k] = s.reg i := by
  subst hki
  simp [State.regBlock, State.reg]

/-- After a block store that fits, each register of the block stands at its own distance from the first address. -/
theorem State.byteAt_storeBytes_regBlock {a : Nat} (hfit : a + x.val ≤ 4095) (hi : i.val ≤ x.val) :
    (s.storeBytes a (s.regBlock x)).byteAt (a + i.val) = s.reg i := by
  have hlen := s.length_regBlock x
  rw [State.byteAt_storeBytes _ _ _ _ (by omega), dif_pos (by omega)]
  exact State.getElem_regBlock _ (Nat.add_sub_cancel_left a i.val)

/-- FX55 with a block that ends in memory: the store, then on to the next word. -/
theorem execLdMemVx_of_fits (hfit : s.index.toNat + x.val ≤ 4095) :
    execLdMemVx x s = .next ((s.storeBytes s.index.toNat (s.regBlock x)).advance 2) :=
  s.checkMemory_pass _ _ (by omega)

end

/-- Settles O45: the store passes its check, `pc` moves on to the first byte stored, and the timer phase leaves both. -/
theorem storesAreSeenByTheNextFetch : Obligations.StoresAreSeenByTheNextFetch := by
  intro x s hf hdecode hx hindex hfit
  have hphase := (instructionPhase_decoded hf hdecode).trans (execLdMemVx_of_fits hfit)
  have hpc : s.pc + 2 = s.index := by bv_omega
  obtain ⟨hfault, hrun, -⟩ := hf
  refine ⟨_, step_of_phase hphase, ⟨hfault, hrun, ?_⟩, ?_⟩
  · show (s.pc + 2).toNat ≤ 4094
    rw [hpc]
    omega
  · have hhigh : (s.storeBytes s.index.toNat (s.regBlock x)).byteAt s.index.toNat = s.reg 0 :=
      State.byteAt_storeBytes_regBlock (i := 0) hfit (Nat.zero_le _)
    have hlow : (s.storeBytes s.index.toNat (s.regBlock x)).byteAt (s.index.toNat + 1) = s.reg 1 :=
      State.byteAt_storeBytes_regBlock (i := 1) hfit hx
    simp only [State.fetchWord_toNat, State.timerPhase_pc, State.advance_pc, State.storeBytes_pc, hpc,
      State.byteAt_timerPhase, State.byteAt_advance, hhigh, hlow]

end Sys2Proof.Machine

/-! # The family 30_encoding: the decoder, the encoder and the opcode map agree -/

namespace Sys2Proof

/-! ## Decode of encode (R60 to R62, R64 to R68) -/

/-- Every well-formed instruction is read back from its word. The cases are the formats of R62. -/
theorem decodeWord_encode {i : Instr} (h : i.wellFormed = true) : decodeWord (encode i) = .ok i := by
  cases i
  case cls | ret => rfl
  -- ADDR and REG_IMM: the family alone selects the instruction.
  case jpNnn | callNnn | ldINnn | jpV0Nnn | seVxNn | sneVxNn | ldVxNn | addVxNn | rndVxNn =>
    simp [encode, decodeWord]
  -- REG_REG and REG_REG_N: so it does, and `N` fits its field because the instruction is well formed.
  case seVxVy n | sneVxVy n | drwVxVyN n =>
    have hn : n ≤ 15 := of_decide_eq_true h
    simp [encode, decodeWord, hn]
  -- REG_REG_OP: the low nibble selects in family 0x8.
  case ldVxVy | orVxVy | andVxVy | xorVxVy | addVxVy | subVxVy | shrVx | subnVxVy | shlVx =>
    simp [encode, decodeWord, decodeFamily8]
  -- REG_OP: the low byte selects in families 0xE and 0xF.
  case skpVx | sknpVx => simp [encode, decodeWord, decodeFamilyE]
  case ldVxDt | ldVxK | ldDtVx | ldStVx | addIVx | ldFVx | ldBVx | ldMemVx | ldVxMem =>
    simp [encode, decodeWord, decodeFamilyF]

/-- The two bytes of an instruction are read as its word, and the bytes after them are left (R60). -/
theorem decodeBytes_encodeBytes_append {i : Instr} (h : decodeWord (encode i) = .ok i) (rest : List Byte) :
    decodeBytes (encodeBytes i ++ rest) = .ok (i, rest) := by
  simp only [encodeBytes, List.cons_append, List.nil_append, decodeBytes, wordOfBytes_split, h]

/-- Settles O2, format by format (`decodeWord_encode`). -/
theorem decodeOfEncodeIsTheInstruction : Obligations.DecodeOfEncodeIsTheInstruction := fun _ hwf =>
  ⟨decodeWord_encode hwf, decodeBytes_encodeBytes_append (decodeWord_encode hwf)⟩

/-! ## What the decoder answers (R61, R70)

Packing the fields of a word gives the word back, so an instruction made of them has that word. -/

section
variable {w : Word} {f n : Nat}

theorem packAddr_fields (hf : fieldF w = f) : packAddr f (fieldNNN w) = w := by
  rw [← hf, packAddr, ← word_eq_addr, BitVec.ofNat_toNat, BitVec.setWidth_eq]

theorem packRegByte_fields (hf : fieldF w = f) (hn : bitField w 7 0 = n) : packRegByte f (fieldX w) n = w := by
  rw [← hf, ← hn, packRegByte, ← word_eq_regByte, BitVec.ofNat_toNat, BitVec.setWidth_eq]

theorem packRegReg_fields (hf : fieldF w = f) (hn : fieldN w = n) : packRegReg f (fieldX w) (fieldY w) n = w := by
  rw [← hf, ← hn, packRegReg, ← word_eq_regReg, BitVec.ofNat_toNat, BitVec.setWidth_eq]

/-- An answer that loses nothing of `w`: a well-formed instruction whose word is `w`, or a rejection that names `w`. -/
def Faithful (w : Word) : Except DecodeError Instr → Prop
  | .ok i => i.wellFormed = true ∧ encode i = w
  | .error e => e = .unrecognised w

theorem decodeFamily0_faithful : Faithful w (decodeFamily0 w) := by
  unfold decodeFamily0
  split_ifs with hcls hret
  · exact ⟨rfl, hcls.symm⟩
  · exact ⟨rfl, hret.symm⟩
  · rfl

theorem decodeFamily8_faithful (hf : fieldF w = 0x8) : Faithful w (decodeFamily8 w) := by
  unfold decodeFamily8
  split
  case h_10 => rfl
  all_goals next hn => exact ⟨rfl, packRegReg_fields hf hn⟩

theorem decodeFamilyE_faithful (hf : fieldF w = 0xE) : Faithful w (decodeFamilyE w) := by
  unfold decodeFamilyE
  split
  case h_3 => rfl
  all_goals next hn => exact ⟨rfl, packRegByte_fields hf hn⟩

theorem decodeFamilyF_faithful (hf : fieldF w = 0xF) : Faithful w (decodeFamilyF w) := by
  unfold decodeFamilyF
  split
  case h_10 => rfl
  all_goals next hn => exact ⟨rfl, packRegByte_fields hf hn⟩

end

/-- Everything the decoder can answer, for every word. Case `h_k` is family `k - 1`. -/
theorem decodeWord_faithful (w : Word) : Faithful w (decodeWord w) := by
  unfold decodeWord
  split
  case h_1 => exact decodeFamily0_faithful
  case h_9 hf => exact decodeFamily8_faithful hf
  case h_15 hf => exact decodeFamilyE_faithful hf
  case h_16 hf => exact decodeFamilyF_faithful hf
  case h_17 => rfl
  case h_2 hf | h_3 hf | h_11 hf | h_12 hf => exact ⟨rfl, packAddr_fields hf⟩
  case h_6 hf | h_10 hf | h_14 hf => exact ⟨decide_eq_true (fieldN_le w), packRegReg_fields hf rfl⟩
  all_goals next hf => exact ⟨rfl, packRegByte_fields hf (fieldNN_toNat w).symm⟩

theorem encode_of_decodeWord {w : Word} {i : Instr} (h : decodeWord w = .ok i) : i.wellFormed = true ∧ encode i = w := by
  simpa only [h, Faithful] using decodeWord_faithful w

theorem error_of_decodeWord {w : Word} {e : DecodeError} (h : decodeWord w = .error e) : e = .unrecognised w := by
  simpa only [h, Faithful] using decodeWord_faithful w

/-- Settles O3: an answer of the decoder loses nothing of the word (`decodeWord_faithful`). -/
theorem encodeOfDecodeIsTheWord : Obligations.EncodeOfDecodeIsTheWord := fun _ _ => encode_of_decodeWord

/-! ## The rows of the opcode map (R70, R71) -/

/-- The row of the instruction that `w` decodes as. -/
def decodedRow (w : Word) : Except DecodeError OpcodeRow := (decodeWord w).map Instr.row

theorem decodedRow_eq_ok {w : Word} {r : OpcodeRow} :
    decodedRow w = .ok r ↔ ∃ i, decodeWord w = .ok i ∧ i.row = r := by
  unfold decodedRow
  cases decodeWord w <;> simp [Except.map]

open Laws.EncodedRow in
theorem row_matches_encode : ∀ i : Instr, Laws.EncodedRow.Statement i
  | .cls => cls | .ret => ret
  | .jpNnn a => jpNnn a | .callNnn a => callNnn a | .ldINnn a => ldINnn a | .jpV0Nnn a => jpV0Nnn a
  | .seVxNn x b => seVxNn x b | .sneVxNn x b => sneVxNn x b | .ldVxNn x b => ldVxNn x b
  | .addVxNn x b => addVxNn x b | .rndVxNn x b => rndVxNn x b
  | .seVxVy x y n => seVxVy x y n | .sneVxVy x y n => sneVxVy x y n | .drwVxVyN x y n => drwVxVyN x y n
  | .ldVxVy x y => ldVxVy x y | .orVxVy x y => orVxVy x y | .andVxVy x y => andVxVy x y
  | .xorVxVy x y => xorVxVy x y | .addVxVy x y => addVxVy x y | .subVxVy x y => subVxVy x y
  | .shrVx x y => shrVx x y | .subnVxVy x y => subnVxVy x y | .shlVx x y => shlVx x y
  | .skpVx x => skpVx x | .sknpVx x => sknpVx x
  | .ldVxDt x => ldVxDt x | .ldVxK x => ldVxK x | .ldDtVx x => ldDtVx x | .ldStVx x => ldStVx x
  | .addIVx x => addIVx x | .ldFVx x => ldFVx x | .ldBVx x => ldBVx x | .ldMemVx x => ldMemVx x
  | .ldVxMem x => ldVxMem x

theorem row_mem_opcodeMap (i : Instr) : i.row ∈ opcodeMap := by
  cases i <;> simp [Instr.row, opcodeMap]

section
variable {p w : Word}

theorem decodeWord_family8 (hf : fieldF w = 0x8) : decodeWord w = decodeFamily8 w := by simp only [decodeWord, hf]

theorem decodeWord_familyE (hf : fieldF w = 0xE) : decodeWord w = decodeFamilyE w := by simp only [decodeWord, hf]

theorem decodeWord_familyF (hf : fieldF w = 0xF) : decodeWord w = decodeFamilyF w := by simp only [decodeWord, hf]

theorem fieldF_of_matches_F000 (h : (OpcodeRow.mk p 0xF000).matches w = true) : fieldF w = fieldF p := by
  have := (matches_F000 p w).1 h
  simp only [fieldF, bitField]
  omega

theorem fields_of_matches_F00F (h : (OpcodeRow.mk p 0xF00F).matches w = true) :
    fieldF w = fieldF p ∧ fieldN w = fieldN p := by
  have := (matches_F00F p w).1 h
  simp only [fieldF, fieldN, bitField]
  omega

theorem fields_of_matches_F0FF (h : (OpcodeRow.mk p 0xF0FF).matches w = true) :
    fieldF w = fieldF p ∧ bitField w 7 0 = bitField p 7 0 := by
  have := (matches_F0FF p w).1 h
  simp only [fieldF, bitField]
  omega

end

/-- A word that matches an instruction's row decodes as an instruction of that row. The cases are the masks: what a mask
keeps of the word is what the decoder selects by. -/
theorem decodedRow_of_row_matches {i : Instr} {w : Word} (h : i.row.matches w = true) : decodedRow w = .ok i.row := by
  unfold decodedRow
  cases i
  case cls | ret => rw [(matches_FFFF _ w).1 h]; rfl
  case ldVxVy | orVxVy | andVxVy | xorVxVy | addVxVy | subVxVy | shrVx | subnVxVy | shlVx =>
    obtain ⟨hf, hn⟩ := fields_of_matches_F00F h
    rw [decodeWord_family8 hf, decodeFamily8, hn]; rfl
  case skpVx | sknpVx =>
    obtain ⟨hf, hn⟩ := fields_of_matches_F0FF h
    rw [decodeWord_familyE hf, decodeFamilyE, hn]; rfl
  case ldVxDt | ldVxK | ldDtVx | ldStVx | addIVx | ldFVx | ldBVx | ldMemVx | ldVxMem =>
    obtain ⟨hf, hn⟩ := fields_of_matches_F0FF h
    rw [decodeWord_familyF hf, decodeFamilyF, hn]; rfl
  all_goals rw [decodeWord, fieldF_of_matches_F000 h]; rfl

/-- The pattern of a row is itself a word of the row, so every row is some instruction's. -/
theorem decodedRow_pattern : ∀ r ∈ opcodeMap, decodedRow r.pattern = .ok r := by decide

theorem decodedRow_of_matches {r : OpcodeRow} {w : Word} (hr : r ∈ opcodeMap) (h : r.matches w = true) :
    decodedRow w = .ok r := by
  obtain ⟨i, -, rfl⟩ := decodedRow_eq_ok.1 (decodedRow_pattern r hr)
  exact decodedRow_of_row_matches h

/-- Settles O4: the row of the decoded instruction matches because its word is `w` (`encode_of_decodeWord`), and a row that
matches is that one (`decodedRow_of_matches`), so there is no second. -/
theorem recognisedWordsAreTheOpcodeMap : Obligations.RecognisedWordsAreTheOpcodeMap := by
  intro w
  have rowMatches : ∀ i, decodeWord w = .ok i → i.row ∈ opcodeMap ∧ i.row.matches w = true := by
    intro i hi
    obtain ⟨hwf, rfl⟩ := encode_of_decodeWord hi
    exact ⟨row_mem_opcodeMap i, row_matches_encode i hwf⟩
  refine ⟨⟨?_, ?_⟩, rowMatches, ?_, fun e => error_of_decodeWord⟩
  · rintro ⟨i, hi⟩
    exact ⟨i.row, rowMatches i hi⟩
  · rintro ⟨r, hr, hm⟩
    obtain ⟨i, hi, -⟩ := decodedRow_eq_ok.1 (decodedRow_of_matches hr hm)
    exact ⟨i, hi⟩
  · intro r hr q hq hrm hqm
    exact Except.ok.inj ((decodedRow_of_matches hr hrm).symm.trans (decodedRow_of_matches hq hqm))

/-- Settles O1: ten fixed words, read by the decoder. -/
theorem sampleWordsDecode : Obligations.SampleWordsDecode := by
  unfold Obligations.SampleWordsDecode
  decide

end Sys2Proof

/-! # The family 40_cycle_step: fetch, the instruction phase, and cycles in which only the timers run -/

namespace Sys2Proof.Machine

/-! ## Cycles in which only the timers run (R86, R87, R89)

A state whose instruction phase answers the state itself leaves its cycle to the timer phase. A set of such states that the
timer phase does not leave is never left, and one induction on the number of cycles says what the timers do meanwhile. -/

section
variable {n : Nat} {s t : State}

theorem State.timerPhase_buzzReady_iff (s : State) : s.timerPhase.buzzReady = true ↔ s.buzzReady = true ∨ s.st = 1 := by
  rw [State.timerPhase_buzzReady, Bool.or_eq_true, beq_iff_eq]

theorem OnlyTimersRan.zero (s : State) : OnlyTimersRan 0 s s :=
  ⟨rfl, rfl, ⟨.inl, fun h => h.elim id fun ⟨hpos, hle⟩ => absurd hpos hle.not_gt⟩, .refl _ s⟩

/-- One more timer phase, before the others. It sets `buzz_ready` when ST is 1, and the others do when ST less one runs out. -/
theorem OnlyTimersRan.succ (h : OnlyTimersRan n s.timerPhase t) : OnlyTimersRan (n + 1) s t := by
  obtain ⟨hdt, hst, hbuzz, hframe⟩ := h
  have hone : s.st = 1 ↔ s.st.toNat = 1 := BitVec.toNat_inj.symm
  rw [State.timerPhase_buzzReady_iff, hone, State.timerPhase_st, countDown_toNat] at hbuzz
  rw [State.timerPhase_dt, countDown_toNat] at hdt
  rw [State.timerPhase_st, countDown_toNat] at hst
  refine ⟨by omega, by omega, ?_, s.timerPhase_frame.trans hframe⟩
  rw [hbuzz, or_assoc]
  exact or_congr_right (by omega)

/-- Cycles from a state of `P`, when the instruction phase does nothing in `P` and the timer phase does not leave it. -/
theorem cycles_onlyTimersRan {P : State → Prop} (idle : ∀ s, P s → instructionPhase s = .next s)
    (kept : ∀ s, P s → P s.timerPhase) (n : Nat) (hs : P s) :
    ∃ t, cycles n s = .next t ∧ P t ∧ OnlyTimersRan n s t := by
  induction n generalizing s with
  | zero => exact ⟨s, performAll_nil s, hs, .zero s⟩
  | succ n ih =>
    obtain ⟨t, hrun, ht, htimers⟩ := ih (kept s hs)
    exact ⟨t, (cycles_succ (step_of_phase (idle s hs))).trans hrun, ht, htimers.succ⟩

end

/-- Settles O10: a blocked state executes nothing, and the timer phase leaves it blocked. -/
theorem blockedCyclesOnlyRunTheTimers : Obligations.BlockedCyclesOnlyRunTheTimers := by
  intro n s hblocked
  obtain ⟨t, hrun, -, htimers⟩ := cycles_onlyTimersRan (P := fun s => s.blocked = true)
    (fun _ => instructionPhase_blocked) (fun _ h => h) n (s.blocked_iff.2 hblocked)
  exact ⟨t, hrun, htimers⟩

/-! ## Unrecognised words (R84, R85) -/

section
variable {s : State} {e : DecodeError}

/-- R84: with `STRICT_DECODE = false` the instruction phase does nothing. -/
theorem instructionPhase_unrecognised_permissive (hf : s.Fetches) (hstrict : s.cfg.strictDecode = false)
    (hd : decodeWord s.fetchWord = .error e) : instructionPhase s = .next s := by
  rw [instructionPhase_unrecognised hf hd, State.unrecognisedWord, hstrict]
  rfl

/-- R85: with `STRICT_DECODE = true` it faults with the word. -/
theorem instructionPhase_unrecognised_strict (hf : s.Fetches) (hstrict : s.cfg.strictDecode = true)
    (hd : decodeWord s.fetchWord = .error e) :
    instructionPhase s = .next (s.raise .illegalInstruction s.fetchWord.toNat) := by
  rw [instructionPhase_unrecognised hf hd, State.unrecognisedWord, if_pos hstrict]

end

/-- A state that fetches an unrecognised word with `STRICT_DECODE = false`, which its cycles do not leave (R89). -/
def State.Livelocked (s : State) : Prop :=
  s.Fetches ∧ s.cfg.strictDecode = false ∧ ∃ e, decodeWord s.fetchWord = .error e

theorem State.Livelocked.instructionPhase_eq {s : State} (h : s.Livelocked) : instructionPhase s = .next s := by
  obtain ⟨hf, hstrict, e, hd⟩ := h
  exact instructionPhase_unrecognised_permissive hf hstrict hd

/-- The timer phase writes nothing that fetch and decode read. -/
theorem State.Livelocked.timerPhase {s : State} (h : s.Livelocked) : s.timerPhase.Livelocked := h

/-- Settles O11: the state of a livelock is kept from cycle to cycle. -/
theorem unrecognisedWordIsALivelock : Obligations.UnrecognisedWordIsALivelock := by
  intro n s e hf hstrict hd
  obtain ⟨t, hrun, -, htimers⟩ := cycles_onlyTimersRan (fun _ => State.Livelocked.instructionPhase_eq)
    (fun _ => State.Livelocked.timerPhase) n ⟨hf, hstrict, e, hd⟩
  exact ⟨t, hrun, htimers⟩

/-- Settles O8: the instruction phase answers the state itself, and the timer phase follows. -/
theorem unrecognisedWordDoesNothing : Obligations.UnrecognisedWordDoesNothing := by
  intro s e hf hstrict hd
  have hphase := instructionPhase_unrecognised_permissive hf hstrict hd
  exact ⟨hphase, step_of_phase hphase⟩

/-- Settles O9: both faults record 16 bits, the word or `pc`, as they are (`State.raise_latches`). -/
theorem illegalAndUnfetchableWordsFault : Obligations.IllegalAndUnfetchableWordsFault := by
  refine ⟨fun s e hf hstrict hd => ?_, fun s hfault hrun hpc => ?_⟩
  · have hphase := instructionPhase_unrecognised_strict hf hstrict hd
    exact ⟨_, hphase, step_of_phase hphase, s.raise_latches _ s.fetchWord.isLt⟩
  · have hfree : s.blocked = false := by simp [State.blocked, hfault, hrun]
    have hphase := instructionPhase_outOfRange hfree hpc
    exact ⟨_, hphase, step_of_phase hphase, s.raise_latches _ s.pc.isLt⟩

/-! ## Fetch, the decoded instruction, and the end of every cycle (R80, R82, R83, R86) -/

/-- Settles O5: the fetched word as a number, and the instruction phase of a word that decodes. -/
theorem fetchIsTheBigEndianWordAtPc : Obligations.FetchIsTheBigEndianWordAtPc := fun s _ =>
  ⟨s.fetchWord_toNat, fun hf _ hd => instructionPhase_decoded hf hd⟩

/-- Settles O6: the decoded instruction is the whole instruction phase. -/
theorem stepRunsTheDecodedInstruction : Obligations.StepRunsTheDecodedInstruction := fun _ _ _ hf hd he =>
  step_of_phase ((instructionPhase_decoded hf hd).trans he)

/-- No instruction phase sets or clears `buzz_ready`: no fault does, and no instruction. -/
theorem instructionPhase_buzzReady {s t : State} (h : instructionPhase s = .next t) : t.buzzReady = s.buzzReady := by
  rcases instructionPhase_cases h with ⟨-, rfl⟩ | ⟨-, -, rfl⟩ | ⟨-, i, -, he⟩ | ⟨-, -, rfl⟩
  · rfl
  · rfl
  · exact (onlyDrawingTouchesTheScreen i s t he).1
  · unfold State.unrecognisedWord
    split_ifs <;> rfl

/-- Settles O7: the instruction phase always answers a state, and the timer phase does the rest. -/
theorem everyCycleEndsWithTheTimerPhase : Obligations.EveryCycleEndsWithTheTimerPhase := by
  intro s
  obtain ⟨t, hphase⟩ := instructionPhase_total s
  refine ⟨t, t.timerPhase, hphase, step_of_phase hphase, countDown_toNat t.dt, countDown_toNat t.st, ?_, t.timerPhase_frame⟩
  rw [State.timerPhase_buzzReady_iff, instructionPhase_buzzReady hphase]

end Sys2Proof.Machine

/-! # The family 41_control_flow: jumps, calls and returns, and skips on registers -/

namespace Sys2Proof.Machine

/-! ## Frames and zero-extended operands -/

/-- The exact frame of `State.withParts` gives the frame that compares memory and the screen by their reads. The parameters have
to be kept, because `FONT` is what memory reads as where nothing was written (R15). -/
theorem ChangesOnly.of_withParts {parts : List Part} {s t : State} (h : t = s.withParts parts t)
    (hcfg : .parameters ∉ parts := by decide) : ChangesOnly parts s t := by
  intro p hp
  rw [h]
  cases p
  case registers => exact fun j => congrArg (·[j]) (if_neg hp)
  case memory => exact fun a => congrArg₂ (Memory.read · · a) (if_neg hcfg) (if_neg hp)
  case screen => exact fun j => congrArg (cell · j) (if_neg hp)
  case waiting => exact ⟨if_neg hp, if_neg hp⟩
  case faultLatch => exact ⟨if_neg hp, if_neg hp, if_neg hp⟩
  all_goals exact if_neg hp

@[simp] theorem addrWord_toNat (nnn : Addr) : (addrWord nnn).toNat = nnn.toNat :=
  BitVec.toNat_setWidth_of_le (by decide)

@[simp] theorem byteWord_toNat (b : Byte) : (byteWord b).toNat = b.toNat :=
  BitVec.toNat_setWidth_of_le (by decide)

/-- The target of BNNN is at most 0xFFF + 0xFF, so 16 bits hold the whole sum (R101). -/
theorem addrWord_add_byteWord_toNat (nnn : Addr) (b : Byte) : (addrWord nnn + byteWord b).toNat = nnn.toNat + b.toNat := by
  have hnnn := nnn.isLt
  have hb := b.isLt
  rw [BitVec.toNat_add, addrWord_toNat, byteWord_toNat]
  omega

/-! ## Calls, returns and jumps (R100 to R103, R132) -/

/-- Settles O18: the call leaves a stack whose newest entry is `pc + 2` (`execCallNnn_room`), and the return goes there and leaves
the rest (`execRet_append`), which is the old stack. -/
theorem callThenReturnComesBack : Obligations.CallThenReturnComesBack := fun nnn _ hroom =>
  ⟨_, _, execCallNnn_room hroom nnn, execRet_append rfl, rfl, rfl, .of_withParts rfl⟩

/-- Settles O13: only `pc` is written, with the zero-extended address. -/
theorem jumpGoesToItsAddress : Obligations.JumpGoesToItsAddress := fun nnn _ =>
  ⟨_, rfl, addrWord_toNat nnn, .of_withParts rfl⟩

/-- Settles O14: the index is the zero-extended address, and the sum that BNNN jumps to does not wrap. -/
theorem loadIndexAndIndexedJump : Obligations.LoadIndexAndIndexedJump := fun nnn s =>
  ⟨⟨_, rfl, addrWord_toNat nnn, rfl, .of_withParts rfl⟩,
    ⟨_, rfl, addrWord_add_byteWord_toNat nnn (s.reg 0), .of_withParts rfl⟩⟩

/-- Settles O15: the case of `execCallNnn_room`. -/
theorem callPushesTheReturnAddress : Obligations.CallPushesTheReturnAddress := fun nnn _ hroom =>
  ⟨_, execCallNnn_room hroom nnn, rfl, addrWord_toNat nnn, .of_withParts rfl⟩

/-- Settles O16: the case of `execRet_append`. -/
theorem returnPopsTheNewestEntry : Obligations.ReturnPopsTheNewestEntry := fun _ _ _ hs =>
  ⟨_, execRet_append hs, rfl, rfl, .of_withParts rfl⟩

/-! ## Skips (R104 to R108) -/

section
variable (s : State) {c : Bool} (a b : Byte)

theorem State.skipIf_pc_taken (hc : c = true) : (s.skipIf c).pc = s.pc + 4 := by
  rw [State.skipIf_eq, State.advance_pc, hc, if_pos rfl]

theorem State.skipIf_pc_not_taken (hc : c = false) : (s.skipIf c).pc = s.pc + 2 := by
  rw [State.skipIf_eq, State.advance_pc, hc, if_neg Bool.false_ne_true]

/-- A skip on equal bytes. -/
theorem State.skipIf_beq : (a = b → (s.skipIf (a == b)).pc = s.pc + 4) ∧ (a ≠ b → (s.skipIf (a == b)).pc = s.pc + 2) ∧
    ChangesOnly [.pc] s (s.skipIf (a == b)) :=
  ⟨fun h => s.skipIf_pc_taken (beq_iff_eq.2 h), fun h => s.skipIf_pc_not_taken (beq_eq_false_iff_ne.2 h), .of_withParts rfl⟩

/-- A skip on unequal bytes. -/
theorem State.skipIf_bne : (a ≠ b → (s.skipIf (a != b)).pc = s.pc + 4) ∧ (a = b → (s.skipIf (a != b)).pc = s.pc + 2) ∧
    ChangesOnly [.pc] s (s.skipIf (a != b)) :=
  ⟨fun h => s.skipIf_pc_taken (bne_iff_ne.2 h), fun h => s.skipIf_pc_not_taken (bne_eq_false_iff_eq.2 h), .of_withParts rfl⟩

end

/-- Settles O19: 3XNN and 4XNN are the skips on `V[X]` and the immediate. -/
theorem immediateSkips : Obligations.ImmediateSkips := fun x nn s =>
  ⟨⟨_, rfl, s.skipIf_beq (s.reg x) nn⟩, ⟨_, rfl, s.skipIf_bne (s.reg x) nn⟩⟩

/-- Settles O20: 5XYN and 9XYN are the skips on `V[X]` and `V[Y]`, whatever the low nibble is. -/
theorem registerSkips : Obligations.RegisterSkips := fun x y _ s =>
  ⟨⟨_, rfl, s.skipIf_beq (s.reg x) (s.reg y)⟩, ⟨_, rfl, s.skipIf_bne (s.reg x) (s.reg y)⟩⟩

end Sys2Proof.Machine

/-! # The family 42_arithmetic: loads, arithmetic, logic, shifts, the index and random bytes -/

namespace Sys2Proof.Machine

/-! ## The flags and differences as numbers (R126 to R131, R133) -/

theorem flagByte_decide_toNat (p : Prop) [Decidable p] : (flagByte (decide p)).toNat = if p then 1 else 0 := by
  by_cases h : p <;> simp [flagByte, h]

/-- R127 compares `b` with `255 - a`, so that the test itself fits a byte: it is the carry of the sum. -/
theorem flagByte_carry_toNat (a b : Byte) : (flagByte (carry a b)).toNat = if a.toNat + b.toNat > 255 then 1 else 0 := by
  rw [carry, flagByte_decide_toNat]
  exact if_congr (by omega) rfl rfl

theorem flagByte_strictlyGreater_toNat (a b : Byte) :
    (flagByte (strictlyGreater a b)).toNat = if a.toNat > b.toNat then 1 else 0 :=
  flagByte_decide_toNat _

theorem flagByte_lowBit_toNat (a : Byte) : (flagByte (lowBit a)).toNat = a.toNat % 2 := by
  rw [lowBit, BitVec.getLsbD, Nat.testBit_zero, flagByte_decide_toNat]
  split_ifs <;> omega

theorem flagByte_aboveMemory_toNat (i : Word) : (flagByte (aboveMemory i)).toNat = if i.toNat > 0x0FFF then 1 else 0 :=
  flagByte_decide_toNat _

/-- A difference of bytes, in the form that adds 256 before it subtracts. -/
theorem byte_sub_toNat (a b : Byte) : (a - b).toNat = (a.toNat + 256 - b.toNat) % 256 := by
  have := b.isLt
  rw [BitVec.toNat_sub]
  omega

/-! ## Flag, then result, then on to the next word (R127 to R131, R135) -/

section
variable {s : State} {flag : Bool} {c : Nat} (hc : (flagByte flag).toNat = c)
include hc

/-- What the second statement reads: the flag in VF, and the old value of any other register (decision D6). -/
theorem State.reg_setFlag_toNat (j : Reg) : ((s.setFlag flag).reg j).toNat = if j = 15 then c else (s.reg j).toNat := by
  rw [State.setFlag_eq, State.reg_setReg, apply_ite BitVec.toNat, hc]
  rfl

theorem State.reg_sub_reg_setFlag_toNat (j k : Reg) : ((s.setFlag flag).reg j - (s.setFlag flag).reg k).toNat =
    ((if j = 15 then c else (s.reg j).toNat) + 256 - (if k = 15 then c else (s.reg k).toNat)) % 256 := by
  rw [byte_sub_toNat, State.reg_setFlag_toNat hc, State.reg_setFlag_toNat hc]

/-- What the five flag writers of family 8 have in common, for the flag `c` and the result `r` as numbers. -/
theorem State.flagThenResult_advance {x : Reg} {result : State → Byte} {r : Nat} (hr : (result (s.setFlag flag)).toNat = r) :
    ∃ t, (.next ((s.flagThenResult x flag result).advance 2) : Answer) = .next t ∧ (t.reg x).toNat = r ∧
      (x ≠ 15 → (t.reg 15).toNat = c) ∧ (∀ j, j ≠ x → j ≠ 15 → t.reg j = s.reg j) ∧ t.pc = s.pc + 2 ∧
      ChangesOnly [.registers, .pc] s t := by
  refine ⟨_, rfl, ?_, fun hx => ?_, fun j hj hflag => ?_, rfl, .of_withParts rfl⟩
  · rw [State.reg_advance, State.flagThenResult_reg, if_pos rfl, hr]
  · rw [State.reg_advance, State.flagThenResult_reg, if_neg hx.symm, ← hc]
    rfl
  · rw [State.reg_advance, State.flagThenResult_reg, if_neg hj]
    exact if_neg hflag

end

/-- Settles O24: the carry is the flag, and the sum is that of what the second statement reads. -/
theorem addWithCarry : Obligations.AddWithCarry := by
  intro x y s c
  have hc := flagByte_carry_toNat (s.reg x) (s.reg y)
  refine State.flagThenResult_advance hc ?_
  rw [BitVec.toNat_add, State.reg_setFlag_toNat hc, State.reg_setFlag_toNat hc]

/-- Settles O25: one direction is the other with the operands exchanged. -/
theorem subtractBothWays : Obligations.SubtractBothWays := by
  intro x y s
  have hc (minuend subtrahend : Reg) := flagByte_strictlyGreater_toNat (s.reg minuend) (s.reg subtrahend)
  exact ⟨State.flagThenResult_advance (hc x y) (State.reg_sub_reg_setFlag_toNat (hc x y) x y),
    State.flagThenResult_advance (hc y x) (State.reg_sub_reg_setFlag_toNat (hc y x) y x)⟩

/-- Settles O26: the flag is the old bit 0 in both directions, and neither reads `V[Y]`. -/
theorem shiftsByOne : Obligations.ShiftsByOne := by
  intro x y s c
  have hc := flagByte_lowBit_toNat (s.reg x)
  constructor
  · refine State.flagThenResult_advance hc ?_
    rw [BitVec.toNat_ushiftRight, Nat.shiftRight_one, State.reg_setFlag_toNat hc]
  · refine State.flagThenResult_advance hc ?_
    rw [BitVec.toNat_shiftLeft, Nat.shiftLeft_eq, State.reg_setFlag_toNat hc]

/-! ## One register, then on to the next word (R120 to R125, R134) -/

section
variable (s : State) (x : Reg) (b : Byte)

theorem State.reg_setReg_self : (s.setReg x b).reg x = b := by
  rw [State.reg_setReg, if_pos rfl]

theorem State.setReg_advance_frame : (∀ j, j ≠ x → ((s.setReg x b).advance 2).reg j = s.reg j) ∧
    ((s.setReg x b).advance 2).pc = s.pc + 2 ∧ ChangesOnly [.registers, .pc] s ((s.setReg x b).advance 2) :=
  ⟨fun _ hj => State.reg_setReg_of_ne (beq_eq_false_iff_ne.2 hj) b, rfl, .of_withParts rfl⟩

end

/-- Settles O22: what each of the three puts into `V[X]`; a sum of bytes is modulo 256. -/
theorem loadsAndAddImmediate : Obligations.LoadsAndAddImmediate := by
  intro x y nn s
  refine ⟨⟨_, rfl, fun j => s.reg_setReg x j nn, rfl, .of_withParts rfl⟩, ⟨_, rfl, ?_, s.setReg_advance_frame x _⟩,
    ⟨_, rfl, fun j => s.reg_setReg x j (s.reg y), rfl, .of_withParts rfl⟩⟩
  rw [State.reg_advance, State.reg_setReg_self, BitVec.toNat_add]

/-- Settles O23: each operation of the model is the one on bits, at every bit. -/
theorem logicOperations : Obligations.LogicOperations := by
  intro x y s
  refine ⟨⟨_, rfl, fun b => ?_, s.setReg_advance_frame x _⟩, ⟨_, rfl, fun b => ?_, s.setReg_advance_frame x _⟩,
    ⟨_, rfl, fun b => ?_, s.setReg_advance_frame x _⟩⟩
  · rw [State.reg_advance, State.reg_setReg_self, BitVec.getLsbD_or]
  · rw [State.reg_advance, State.reg_setReg_self, BitVec.getLsbD_and]
  · rw [State.reg_advance, State.reg_setReg_self, BitVec.getLsbD_xor]

/-- Settles O28: the byte of this draw, masked; the counter moves on by one. -/
theorem randomByteIsMasked : Obligations.RandomByteIsMasked := by
  intro x nn s
  refine ⟨_, rfl, fun b => ?_, rfl, fun j hj => State.reg_setReg_of_ne (beq_eq_false_iff_ne.2 hj) _, rfl, .of_withParts rfl⟩
  rw [State.reg_advance, State.reg_setReg_self, BitVec.getLsbD_and]

/-! ## The index (R133) -/

/-- Settles O27: `I` is written from the old registers, and VF from the new `I`. -/
theorem addRegisterToIndex : Obligations.AddRegisterToIndex := by
  intro x s
  refine ⟨_, rfl, ?_, ?_, fun j hj => State.reg_setReg_of_ne (beq_eq_false_iff_ne.2 hj) _, rfl, .of_withParts rfl⟩
  · show (s.index + byteWord (s.reg x)).toNat = _
    rw [BitVec.toNat_add, byteWord_toNat]
  · exact (State.reg_setFlag_toNat (flagByte_aboveMemory_toNat _) 15).trans (if_pos rfl)

end Sys2Proof.Machine

/-! # The family 43_display_timers: clearing the screen, drawing a sprite, and the timers -/

namespace Sys2Proof.Machine

/-- Settles O29: the cells of a blank screen are 0, and the rest is the frame. -/
theorem clearScreen : Obligations.ClearScreen := fun _ =>
  ⟨_, rfl, cell_blankScreen, rfl, rfl, .of_withParts rfl⟩

/-- Settles O33: each of the three writes one field, and then `pc`. -/
theorem timerReadAndSet : Obligations.TimerReadAndSet := fun x s =>
  ⟨⟨_, rfl, fun j => s.reg_setReg x j s.dt, rfl, .of_withParts rfl⟩, ⟨_, rfl, rfl, rfl, .of_withParts rfl⟩,
    ⟨_, rfl, rfl, rfl, .of_withParts rfl⟩⟩

/-! ## The draw that fits (R151, R155)

The model draws row by row (`spriteCovers`); the statements speak of the 1 bits of the sprite by row and column (`SpriteOn`). -/

/-- The screen and the collision flag after all rows of the sprite are drawn. -/
def State.drawn (s : State) (x y : Reg) (n : Nat) : Framebuffer × Bool :=
  plotRows (s.spriteRows n) ((s.reg x).toNat + (s.reg y).toNat * 64) (s.fb, false)

section
variable {s t : State} {x y : Reg} {n j : Nat}

theorem spriteCovers_spriteRows_iff :
    spriteCovers (s.spriteRows n) ((s.reg x).toNat + (s.reg y).toNat * 64) j = true ↔ SpriteOn s x y n j := by
  have flat (row col : Nat) : j = (s.reg x).toNat + (s.reg y).toNat * 64 + col + row * 64 ↔
      j = (s.reg x).toNat + col + ((s.reg y).toNat + row) * 64 := by omega
  simp [spriteCovers_iff, SpriteOn, State.spriteRows, rowPixel, flat]

/-- Every cell under a sprite that fits exists. -/
theorem SpriteOn.lt_of_fits (hon : SpriteOn s x y n j) (hfit : DrawFits s x y n) : j < 2048 := by
  obtain ⟨row, hrow, col, hcol, hj, -⟩ := hon
  have hlast := (hfit (by omega)).2
  omega

/-- The sprite of a draw that fits satisfies the bound of `plotRows_spec`. -/
theorem DrawFits.rows_fit (hfit : DrawFits s x y n) (hne : s.spriteRows n ≠ []) :
    (s.reg x).toNat + (s.reg y).toNat * 64 + ((s.spriteRows n).length - 1) * 64 + 8 ≤ 2048 := by
  have hlen : (s.spriteRows n).length = n := by simp [State.spriteRows]
  have hpos : 0 < n := hlen ▸ List.length_pos_iff.2 hne
  have hlast := (hfit hpos).2
  omega

theorem DrawFits.cell_drawn (hfit : DrawFits s x y n) (j : Nat) :
    cell (s.drawn x y n).1 j = true ↔ Xor (cell s.fb j = true) (SpriteOn s x y n j) := by
  rw [State.drawn, (plotRows_spec _ _ _ hfit.rows_fit).1 j, ← spriteCovers_spriteRows_iff]
  cases cell s.fb j <;> simp [Xor]

theorem DrawFits.hit_drawn (hfit : DrawFits s x y n) :
    (s.drawn x y n).2 = true ↔ ∃ j, cell s.fb j = true ∧ SpriteOn s x y n j := by
  simp [State.drawn, (plotRows_spec _ _ _ hfit.rows_fit).2, spriteCovers_spriteRows_iff]

/-- DXYN, when both checks pass. -/
theorem execDrwVxVyN_of_fits (hfit : DrawFits s x y n) : execDrwVxVyN x y n s =
    .next (({ s with fb := (s.drawn x y n).1, drawReady := true }.setFlag (s.drawn x y n).2).advance 2) := by
  refine (s.checkMemory_pass n _ fun ⟨hpos, hmem⟩ => ?_).trans (if_neg fun ⟨hpos, hcell⟩ => ?_)
  · have := (hfit hpos).1
    omega
  · exact hcell.not_ge (hfit hpos).2

/-- A draw sees the same sprite at the same cells in `t` as in `s` when `V[X]`, `V[Y]`, `I` and memory are the same. -/
theorem spriteOn_congr (hx : t.reg x = s.reg x) (hy : t.reg y = s.reg y) (hindex : t.index = s.index)
    (hmem : ∀ a, t.byteAt a = s.byteAt a) : SpriteOn t x y n j ↔ SpriteOn s x y n j := by
  simp only [SpriteOn, hx, hy, hindex, hmem]

theorem drawFits_congr (hx : t.reg x = s.reg x) (hy : t.reg y = s.reg y) (hindex : t.index = s.index) :
    DrawFits t x y n ↔ DrawFits s x y n := by
  simp only [DrawFits, hx, hy, hindex]

end

/-- Settles O30: the cells and the flag are those of `State.drawn`, and the coordinates are read from `s` before VF is written. -/
theorem drawFlipsTheSpriteCells : Obligations.DrawFlipsTheSpriteCells := by
  intro x y n s hfit
  have hflag := State.reg_setReg_self { s with fb := (s.drawn x y n).1, drawReady := true } flagReg (flagByte (s.drawn x y n).2)
  refine ⟨_, execDrwVxVyN_of_fits hfit, fun j _ => hfit.cell_drawn j, fun hhit => ?_, fun hhit => ?_, fun j hj => ?_, rfl, rfl,
    .of_withParts rfl⟩
  · exact hflag.trans (congrArg flagByte (hfit.hit_drawn.2 hhit))
  · exact hflag.trans (congrArg flagByte (Bool.eq_false_iff.2 (mt hfit.hit_drawn.1 hhit)))
  · exact State.reg_setReg_of_ne (beq_eq_false_iff_ne.2 hj) _

/-- Settles O32: the second draw flips the same cells back, by the statement about one draw for both. It collides, because the
first draw set the cells under the 1 bits. -/
theorem drawingTwiceRestoresTheScreen : Obligations.DrawingTwiceRestoresTheScreen := by
  intro x y n s hx hy hfit ⟨k, hk⟩ hblank
  obtain ⟨t, ht, tcell, -, tmiss, treg, tready, -, tframe⟩ := drawFlipsTheSpriteCells x y n s hfit
  have hindex : t.index = s.index := tframe .index (by decide)
  have hmem : ∀ a, t.byteAt a = s.byteAt a := tframe .memory (by decide)
  have hon (j : Nat) : SpriteOn t x y n j ↔ SpriteOn s x y n j := spriteOn_congr (treg x hx) (treg y hy) hindex hmem
  have hfit' : DrawFits t x y n := (drawFits_congr (treg x hx) (treg y hy) hindex).2 hfit
  obtain ⟨u, hu, ucell, uhit, -, -, uready, -, -⟩ := drawFlipsTheSpriteCells x y n t hfit'
  refine ⟨t, u, ht, hu, tmiss ?_, uhit ⟨k, ?_, (hon k).2 hk⟩, screen_ext fun j hj => ?_, tready, uready⟩
  · rintro ⟨j, hset, hj⟩
    exact absurd (hblank j hj) (by simp [hset])
  · exact (tcell k (hk.lt_of_fits hfit)).2 (.inr ⟨hk, by simp [hblank k hk]⟩)
  · rw [Bool.eq_iff_iff, ucell j hj, hon, tcell j hj]
    by_cases hon' : SpriteOn s x y n j <;> simp [Xor, hon']

/-! ## The draw out of range (R151, decisions D10, D12) -/

/-- Settles O31: the two checks in their order. What they record fits 16 bits: a cell index is below 2^16 with 15 rows. -/
theorem drawOutOfRangeFaults : Obligations.DrawOutOfRangeFaults := by
  intro x y n s hpos hrows
  refine ⟨fun hmem => ⟨_, s.checkMemory_fail n _ ⟨hpos, by omega⟩, s.raise_latches _ ?_⟩, fun hmem hcell =>
    ⟨_, (s.checkMemory_pass n _ (by omega)).trans (if_pos ⟨hpos, hcell⟩), s.raise_latches _ ?_⟩⟩
  · exact max_lt s.index.isLt (by decide)
  · have := (s.reg x).isLt
    have := (s.reg y).isLt
    show (s.reg x).toNat + 7 + ((s.reg y).toNat + n - 1) * 64 < 2 ^ 16
    omega

end Sys2Proof.Machine

/-! # The family 44_keyboard_memory: skips on keys, the wait for a key, and the memory block instructions -/

namespace Sys2Proof.Machine

/-! ## The wait for a key (R172, R191) -/

/-- Settles O35: the wait begins and `pc` moves on; the rest is the frame. -/
theorem keyWaitBegins : Obligations.KeyWaitBegins := fun _ _ =>
  ⟨_, rfl, rfl, rfl, rfl, .of_withParts rfl⟩

theorem performAll_append {ops : List HostOp} {s t : State} (h : performAll ops s = .next t) (rest : List HostOp) :
    performAll (ops ++ rest) s = performAll rest t := by
  induction ops generalizing s with
  | nil =>
    obtain rfl := Host.Outcome.next.inj h
    rfl
  | cons op ops ih =>
    cases hop : perform op s with
    | next u =>
      rw [performAll_cons hop] at h
      rw [List.cons_append, performAll_cons hop, ih h]
    | fault r => simp [performAll, hop] at h
    | refused r => simp [performAll, hop] at h

/-- R191: a press while the machine waits. -/
theorem keyPress_of_awaiting {s : State} (h : s.runState = .awaitingKey) (k : Key) :
    keyPress k s = ({ s with runState := .running }.setReg s.waitReg (BitVec.ofNat 8 k.val)).setKey k true := by
  simp only [keyPress, h]

/-- Cycles of a waiting machine run the timers only, so the registers, `pc`, the wait and the fault latch are kept (R87). -/
theorem cycles_of_awaiting {s : State} (h : s.runState = .awaitingKey) (n : Nat) :
    ∃ t, cycles n s = .next t ∧ ChangesOnly [.delayTimer, .soundTimer, .buzzReady] s t := by
  obtain ⟨t, hrun, -, -, -, hframe⟩ := blockedCyclesOnlyRunTheTimers n s (.inr h)
  exact ⟨t, hrun, hframe⟩

/-- Settles O38: the first cycle begins the wait, the next `n` change the timers only, and the press ends the wait. -/
theorem keyWaitRoundTrip : Obligations.KeyWaitRoundTrip := by
  intro n k x s hf hdecode
  obtain ⟨t, hexec, hawait, hwaitReg, hpc, hbegin⟩ := keyWaitBegins x s
  have hstep := stepRunsTheDecodedInstruction s t _ hf hdecode hexec
  obtain ⟨u, hcycles, hidle⟩ := cycles_of_awaiting (s := t.timerPhase) hawait n
  obtain ⟨hrunState, hsameReg⟩ : u.runState = t.runState ∧ u.waitReg = t.waitReg := hidle .waiting (by decide)
  have hreg (j : Reg) : u.reg j = s.reg j :=
    (hidle .registers (by decide) j).trans (hbegin .registers (by decide) j)
  have hfault : u.fault = s.fault :=
    (hidle .faultLatch (by decide)).1.trans (hbegin .faultLatch (by decide)).1
  have hpress := keyPress_of_awaiting (hrunState.trans hawait) k
  rw [hsameReg, hwaitReg] at hpress
  refine ⟨_, (performAll_append ((cycles_succ hstep).trans hcycles) _).trans
    (congrArg Host.Outcome.next hpress), ?_, fun j hj => ?_, rfl, hfault.trans hf.1, ?_⟩
  · show ((State.setReg _ x _).reg x).toNat = k.val
    rw [State.reg_setReg_self, BitVec.toNat_ofNat]
    omega
  · exact (State.reg_setReg_of_ne (beq_eq_false_iff_ne.2 hj) _).trans (hreg j)
  · exact (hidle .pc (by decide)).trans hpc

/-! ## Skips on keys (R170, R171) -/

/-- A register that holds the code of a key skips on that key. -/
theorem State.skipOnKey_of_toNat_eq (s : State) {b : Byte} {k : Key} (hk : b.toNat = k.val) (held : Bool) :
    s.skipOnKey b held = .next (s.skipIf (s.key[k] == held)) := by
  have hkey : s.keyHeld k.val = s.key[k] := dif_pos k.isLt
  rw [State.skipOnKey, if_neg (by omega), hk, hkey]

/-- Settles O21: the skip compares the key with what the instruction asks for; above 15 the whole byte is recorded. -/
theorem keySkips : Obligations.KeySkips := by
  intro x s
  refine ⟨fun k hk => ⟨⟨_, s.skipOnKey_of_toNat_eq hk true, ?_, .of_withParts rfl⟩,
    ⟨_, s.skipOnKey_of_toNat_eq hk false, ?_, .of_withParts rfl⟩⟩, fun hk => ?_⟩
  · cases s.key[k] <;> rfl
  · cases s.key[k] <;> rfl
  · have latched := s.raise_latches .keyIndexOutOfRange ((s.reg x).isLt.trans (by decide))
    exact ⟨⟨_, if_pos hk, latched⟩, ⟨_, if_pos hk, latched⟩⟩

/-! ## The font address (R173) -/

/-- The product is at most 255 * 5, so 16 bits hold it. -/
theorem byteWord_mul_five_toNat (b : Byte) : (byteWord b * 5).toNat = b.toNat * 5 := by
  have := b.isLt
  rw [BitVec.toNat_mul, byteWord_toNat]
  exact Nat.mod_eq_of_lt (show b.toNat * 5 < 2 ^ 16 by omega)

theorem packRegByte_toNat {f nn : Nat} (hf : f < 16) (x : Reg) (hnn : nn < 256) :
    (packRegByte f x nn).toNat = f * 4096 + x.val * 256 + nn := by
  have := x.isLt
  rw [packRegByte, BitVec.toNat_ofNat]
  omega

/-- Settles O39: the fields of the word do not overlap, and the product does not wrap. -/
theorem fontAddress : Obligations.FontAddress := by
  intro x s
  refine ⟨?_, _, rfl, byteWord_mul_five_toNat (s.reg x), rfl, .of_withParts rfl⟩
  rw [encode, packRegByte_toNat (by decide) x (by decide)]
  omega

/-! ## Blocks of memory (R42, R174 to R176) -/

section
variable {s : State} {a j : Nat} {bytes : List Byte} (hfit : a + bytes.length ≤ 4096)
include hfit

theorem State.byteAt_storeBytes_add {i : Nat} (hi : i < bytes.length) :
    (s.storeBytes a bytes).byteAt (a + i) = bytes[i] := by
  rw [State.byteAt_storeBytes _ _ _ _ hfit, dif_pos (by omega)]
  simp

theorem State.byteAt_storeBytes_outside (hj : j < a ∨ a + bytes.length ≤ j) :
    (s.storeBytes a bytes).byteAt j = s.byteAt j := by
  rw [State.byteAt_storeBytes _ _ _ _ hfit, dif_neg (by omega)]

end

/-- A decimal digit fits a byte, so it is stored as it is. -/
theorem decimalDigits_toNat (b : Byte) :
    (decimalDigits b).map BitVec.toNat = [b.toNat / 100, b.toNat / 10 % 10, b.toNat % 10] := by
  have := b.isLt
  simp only [decimalDigits, List.map, BitVec.toNat_ofNat, List.cons.injEq, and_true]
  omega

section
variable {s : State} {x : Reg}

/-- FX33 with three bytes that exist: the store, then on to the next word. -/
theorem execLdBVx_of_fits (hfit : s.index.toNat + 2 ≤ 4095) :
    execLdBVx x s = .next ((s.storeBytes s.index.toNat (decimalDigits (s.reg x))).advance 2) :=
  s.checkMemory_pass _ _ (by omega)

/-- FX65 with a block that ends in memory: the load, then on to the next word. -/
theorem execLdVxMem_of_fits (hfit : s.index.toNat + x.val ≤ 4095) :
    execLdVxMem x s = .next ({ s with v := s.loadBlock x }.advance 2) :=
  s.checkMemory_pass _ _ (by omega)

theorem State.getElem_loadBlock_of_le {i : Reg} (hi : i ≤ x) :
    (s.loadBlock x)[i] = s.byteAt (s.index.toNat + i.val) := by
  simp [State.loadBlock, hi]

end

/-- Settles O40: the store passes its check, and its three bytes are the digits. -/
theorem decimalDigitsAreStored : Obligations.DecimalDigitsAreStored := by
  intro x s hfit
  have hroom : s.index.toNat + (decimalDigits (s.reg x)).length ≤ 4096 := Nat.succ_le_succ hfit
  have hdigit (i : Nat) (hi : i < 3) :
      ((s.storeBytes s.index.toNat (decimalDigits (s.reg x))).byteAt (s.index.toNat + i)).toNat =
        [(s.reg x).toNat / 100, (s.reg x).toNat / 10 % 10, (s.reg x).toNat % 10][i] :=
    (congrArg BitVec.toNat (State.byteAt_storeBytes_add hroom hi)).trans
      ((List.getElem_map BitVec.toNat).symm.trans (List.getElem_of_eq (decimalDigits_toNat (s.reg x)) hi))
  exact ⟨_, execLdBVx_of_fits hfit, hdigit 0 (by decide), hdigit 1 (by decide), hdigit 2 (by decide),
    fun _ ha => State.byteAt_storeBytes_outside hroom ha, rfl, .of_withParts rfl⟩

/-- Settles O41: inside the block `State.byteAt_storeBytes_regBlock`, outside it `State.byteAt_storeBytes_outside`. -/
theorem registersAreStored : Obligations.RegistersAreStored := by
  intro x s hfit
  have hroom : s.index.toNat + (s.regBlock x).length ≤ 4096 := by
    rw [State.length_regBlock]
    omega
  refine ⟨_, execLdMemVx_of_fits hfit, fun i hi => State.byteAt_storeBytes_regBlock hfit hi, fun a ha => ?_, rfl,
    .of_withParts rfl⟩
  refine State.byteAt_storeBytes_outside hroom ?_
  rw [State.length_regBlock]
  omega

/-- Settles O42: the two cases of a register of `State.loadBlock`. -/
theorem registersAreLoaded : Obligations.RegistersAreLoaded := fun _ _ hfit =>
  ⟨_, execLdVxMem_of_fits hfit, fun _ hi => State.getElem_loadBlock_of_le hi,
    fun _ hi => State.getElem_loadBlock_of_lt hi, rfl, .of_withParts rfl⟩

/-- Settles O43: the load reads the bytes that the dump stored, because the dump leaves `I`. -/
theorem dumpThenLoadGivesTheRegistersBack : Obligations.DumpThenLoadGivesTheRegistersBack := by
  intro x s between hfit
  obtain ⟨t, hdump, hstored, -, -, hframe⟩ := registersAreStored x s hfit
  have hindex : t.index = s.index := hframe .index (by decide)
  obtain ⟨u, hload, hloaded, hkept, -, -⟩ := registersAreLoaded x { t with v := between } (hindex ▸ hfit)
  refine ⟨t, u, hdump, hload, fun i hi => ?_, hkept⟩
  calc u.reg i
      _ = t.byteAt (t.index.toNat + i.val) := hloaded i hi
      _ = t.byteAt (s.index.toNat + i.val) := by rw [hindex]
      _ = s.reg i := hstored i hi

/-- Settles O44: all three fail the same check, and the address that it records fits 16 bits. -/
theorem memoryBlocksOutOfRangeFault : Obligations.MemoryBlocksOutOfRangeFault := by
  intro x s
  have latched := s.raise_latches .memoryOutOfRange (max_lt s.index.isLt (by decide : 4096 < 2 ^ 16))
  exact ⟨fun hout => ⟨_, s.checkMemory_fail 3 _ ⟨by decide, hout⟩, latched⟩,
    fun hout => ⟨⟨_, s.checkMemory_fail (x.val + 1) _ ⟨x.val.succ_pos, hout⟩, latched⟩,
      ⟨_, s.checkMemory_fail (x.val + 1) _ ⟨x.val.succ_pos, hout⟩, latched⟩⟩⟩

end Sys2Proof.Machine

/-! # The family 45_host_operations: keys, loading an image, and the consuming reads -/

namespace Sys2Proof.Machine

/-! ## Keys (R191, R192) -/

/-- R191: a press while the machine runs. -/
theorem keyPress_of_running {s : State} (h : s.runState = .running) (k : Key) : keyPress k s = s.setKey k true := by
  simp only [keyPress, h]

/-- A byte holds the code of a key as it is. -/
theorem keyByte_toNat (k : Key) : (BitVec.ofNat 8 k.val).toNat = k.val :=
  Nat.mod_eq_of_lt (k.isLt.trans (by decide))

/-- Settles O36: a press is one update of the state when it ends a wait and another when the machine runs. -/
theorem keyPressEndsTheWait : Obligations.KeyPressEndsTheWait := by
  intro k s
  cases hrun : s.runState with
  | awaitingKey =>
    refine ⟨_, congrArg Host.Outcome.next (keyPress_of_awaiting hrun k), rfl, rfl, State.keyHeld_setKey _ k true,
      fun _ => ⟨?_, fun j hj => State.reg_setReg_of_ne (beq_eq_false_iff_ne.2 hj) _⟩, nofun, .of_withParts rfl⟩
    exact (congrArg BitVec.toNat (State.reg_setReg_self _ s.waitReg _)).trans (keyByte_toNat k)
  | running =>
    exact ⟨_, congrArg Host.Outcome.next (keyPress_of_running hrun k), hrun, rfl, s.keyHeld_setKey k true, nofun,
      fun _ _ => rfl, .of_withParts rfl⟩

/-- Settles O37: a release writes one key, whether or not it was held. -/
theorem keyReleaseClearsItsKey : Obligations.KeyReleaseClearsItsKey := fun k s =>
  ⟨_, rfl, s.keyHeld_setKey k false, .of_withParts rfl⟩

/-! ## Loading an image (R195) -/

section
variable {image : List Byte}

theorem loadResult_of_fits (hfit : image.length ≤ 3584) : loadResult image = .accepted := if_neg (Nat.not_lt.2 hfit)

theorem loadResult_of_tooLarge (hlong : 3584 < image.length) : loadResult image = .imageTooLarge := if_pos hlong

theorem loadRom_of_fits (hfit : image.length ≤ 3584) (s : State) : loadRom image s = s.storeBytes 0x200 image := by
  rw [loadRom, loadResult_of_fits hfit]

theorem loadRom_of_tooLarge (hlong : 3584 < image.length) (s : State) : loadRom image s = s := by
  rw [loadRom, loadResult_of_tooLarge hlong]

end

/-- Settles O58: 3584 bytes are what memory holds from 0x200 up, so an accepted image is a block store that fits. -/
theorem loadRomCopiesOrRefuses : Obligations.LoadRomCopiesOrRefuses := by
  intro image s
  constructor
  · intro hfit
    have hroom : 0x200 + image.length ≤ 4096 := by omega
    exact ⟨congrArg Reply.loaded (loadResult_of_fits hfit), _, congrArg Host.Outcome.next (loadRom_of_fits hfit s),
      fun _ hi => State.byteAt_storeBytes_add hroom hi, fun _ ha => State.byteAt_storeBytes_outside hroom ha,
      .of_withParts rfl⟩
  · intro hlong
    exact ⟨congrArg Reply.loaded (loadResult_of_tooLarge hlong),
      congrArg Host.Outcome.next (loadRom_of_tooLarge hlong s)⟩

/-! ## The consuming reads and the read of a cell (R193, R194, R196) -/

/-- Settles O59: a take returns the old flag and writes that flag only; the read of a cell has no next state of its own. -/
theorem takesClearAndReadsDoNot : Obligations.TakesClearAndReadsDoNot := fun _ =>
  ⟨⟨_, rfl, rfl, rfl, .of_withParts rfl⟩, ⟨_, rfl, rfl, rfl, .of_withParts rfl⟩, fun _ => ⟨rfl, rfl⟩⟩

end Sys2Proof.Machine

/-! # The family 60_exceptions: the fault table, and a latched fault under the host's operations -/

namespace Sys2Proof.Machine

/-! ## The fault table (R210, R211) -/

section
variable {s t : State}

/-- The index of the last cell of a draw fits 16 bits: it is at most 255 + 7 + (255 + 14) * 64. -/
theorem State.lastCell_lt (s : State) (x y : Reg) {n : Nat} (hn : n ≤ 15) :
    lastCell (s.reg x).toNat (s.reg y).toNat n < 2 ^ 16 := by
  have := (s.reg x).isLt
  have := (s.reg y).isLt
  rw [lastCell]
  omega

/-- Everything an instruction can do to the latch: the fault of the table, which is no "no fault", or nothing. -/
theorem exec_faultOf_cases {i : Instr} (hwf : i.wellFormed = true) (he : exec i s = .next t) :
    (∃ cause info, faultOf i s = some (cause, info) ∧ Latches s t cause info ∧ cause.code ≠ 0) ∨
    (faultOf i s = none ∧ Part.faultLatch.Same s t) := by
  have address_lt : max s.index.toNat 4096 < 2 ^ 16 := max_lt s.index.isLt (by decide)
  cases i
  case callNnn nnn =>
    rcases execCallNnn_cases he with ⟨hfull, rfl⟩ | ⟨hroom, rfl⟩
    · exact .inl ⟨_, _, if_pos hfull, s.raise_latches _ s.pc.isLt, by decide⟩
    · exact .inr ⟨if_neg hroom.not_ge, rfl, rfl, rfl⟩
  case ret =>
    rcases execRet_cases he with ⟨hempty, rfl⟩ | ⟨rest, a, hs, rfl⟩
    · exact .inl ⟨_, _, if_pos hempty, s.raise_latches _ s.pc.isLt, by decide⟩
    · have hpos : s.sp ≠ 0 := by simp [State.sp, hs]
      exact .inr ⟨if_neg hpos, rfl, rfl, rfl⟩
  case drwVxVyN x y n =>
    rcases execDrwVxVyN_cases he with ⟨hn, hmem, rfl⟩ | ⟨hmem, hn, hcell, rfl⟩ | ⟨hmem, hcell, drawn, hit, -, rfl⟩
    · exact .inl ⟨_, _, (if_neg hn.ne').trans (if_pos (by omega)), s.raise_latches _ address_lt, by decide⟩
    · exact .inl ⟨_, _, (if_neg hn.ne').trans ((if_neg (by omega)).trans (if_pos hcell)),
        s.raise_latches _ (s.lastCell_lt x y (of_decide_eq_true hwf)), by decide⟩
    · refine .inr ⟨?_, rfl, rfl, rfl⟩
      rcases n.eq_zero_or_pos with hn | hn
      · exact if_pos hn
      · exact (if_neg hn.ne').trans ((if_neg (by omega)).trans (if_neg fun h => hcell ⟨hn, h⟩))
  case skpVx x | sknpVx x =>
    rcases State.skipOnKey_cases he with ⟨hk, rfl⟩ | ⟨hk, rfl⟩
    · exact .inl ⟨_, _, if_pos hk, s.raise_latches _ ((s.reg x).isLt.trans (by decide)), by decide⟩
    · exact .inr ⟨if_neg hk.not_gt, rfl, rfl, rfl⟩
  case ldBVx | ldMemVx | ldVxMem =>
    rcases State.checkMemory_cases he with ⟨-, hmem, rfl⟩ | ⟨hmem, he⟩
    · exact .inl ⟨_, _, if_pos hmem, s.raise_latches _ address_lt, by decide⟩
    · obtain rfl := Host.Outcome.next.inj he
      exact .inr ⟨if_neg fun h => hmem ⟨Nat.succ_pos _, h⟩, rfl, rfl, rfl⟩
  -- The others have no row in the table and do not write the latch.
  all_goals
    obtain rfl := Host.Outcome.next.inj he
    exact .inr ⟨rfl, rfl, rfl, rfl⟩

end

/-- Settles O52, by the two cases of `exec_faultOf_cases`; `status()` reads the latch. -/
theorem faultsFollowTheTableAndArePrecise : Obligations.FaultsFollowTheTableAndArePrecise := by
  intro i s t hwf he
  rcases exec_faultOf_cases hwf he with ⟨cause, info, htable, hlatches, hcode⟩ | ⟨htable, hsame⟩
  · refine ⟨fun cause' info' h => ?_, fun h => absurd (htable.symm.trans h) nofun⟩
    obtain ⟨rfl, rfl⟩ := Prod.mk.inj (Option.some.inj (htable.symm.trans h))
    have ⟨hfault, hcause, hinfo, _⟩ := hlatches
    exact ⟨hlatches, hfault, congrArg FaultCause.code hcause, hcode, hinfo⟩
  · exact ⟨fun _ _ h => absurd (htable.symm.trans h) nofun, fun _ => hsame⟩

/-! ## A latched fault is kept (R216) -/

/-- R80: a faulted machine executes nothing, and its step is the timer phase. -/
theorem step_of_fault {s : State} (hfault : s.fault = true) : step s = .next s.timerPhase :=
  step_of_phase (instructionPhase_blocked (s.blocked_iff.2 (.inl hfault)))

/-- A load stores or does nothing. -/
theorem loadRom_keeps_faultLatch (image : List Byte) (s : State) : Part.faultLatch.Same s (loadRom image s) := by
  rcases Nat.lt_or_ge 3584 image.length with hlong | hfit
  · rw [loadRom_of_tooLarge hlong]
    exact ⟨rfl, rfl, rfl⟩
  · rw [loadRom_of_fits hfit]
    exact ⟨rfl, rfl, rfl⟩

/-- A press writes keys, and the wait and its register when it ends one. -/
theorem keyPress_keeps_faultLatch (k : Key) (s : State) : Part.faultLatch.Same s (keyPress k s) := by
  cases hrun : s.runState with
  | awaitingKey =>
    rw [keyPress_of_awaiting hrun]
    exact ⟨rfl, rfl, rfl⟩
  | running =>
    rw [keyPress_of_running hrun]
    exact ⟨rfl, rfl, rfl⟩

/-- Every operation but `reset()` keeps the latch of a faulted machine. -/
theorem perform_keeps_faultLatch {op : HostOp} {s t : State} (hop : op ≠ .reset) (hfault : s.fault = true)
    (hperf : perform op s = .next t) : Part.faultLatch.Same s t := by
  cases op with
  | reset => exact absurd rfl hop
  | step =>
    obtain rfl := Host.Outcome.next.inj ((step_of_fault hfault).symm.trans hperf)
    exact ⟨rfl, rfl, rfl⟩
  | loadRom image => exact Host.Outcome.next.inj hperf ▸ loadRom_keeps_faultLatch image s
  | keyPress k => exact Host.Outcome.next.inj hperf ▸ keyPress_keeps_faultLatch k s
  | keyRelease | takeDrawReady | takeBuzzReady | fbRead | status =>
    obtain rfl := Host.Outcome.next.inj hperf
    exact ⟨rfl, rfl, rfl⟩

/-- Settles O53: the operation keeps the latch, so a latched fault stays latched. -/
theorem latchedFaultIsSticky : Obligations.LatchedFaultIsSticky := by
  intro op s t hop hfault hperf
  obtain ⟨hsame, hcause, hinfo⟩ := perform_keeps_faultLatch hop hfault hperf
  exact ⟨hsame.trans hfault, hcause, hinfo⟩

end Sys2Proof.Machine

/-! # The family 70_reset_and_hazards: the parked program, timer writes in their own cycle, and the reset state -/

namespace Sys2Proof.Machine

/-! ## A parked program (R243, R100) -/

section
variable {s : State}

theorem State.Parked.fetches (h : s.Parked) (hrun : s.runState = .running) : s.Fetches := by
  obtain ⟨hpc, -, hfault⟩ := h
  exact ⟨hfault, hrun, hpc⟩

/-- The address of the jump at `pc`, zero-extended, is `pc`. -/
theorem State.Parked.addrWord_pc (h : s.Parked) : addrWord (s.pc.setWidth 12) = s.pc := by
  obtain ⟨hpc, -, -⟩ := h
  apply BitVec.eq_of_toNat_eq
  rw [addrWord_toNat, BitVec.toNat_setWidth]
  omega

/-- The word 0x1000 + `pc` is the jump to `pc`, whose 12 bits hold an address that can be fetched from. -/
theorem State.Parked.decodeWord_fetchWord (h : s.Parked) :
    decodeWord s.fetchWord = .ok (.jpNnn (s.pc.setWidth 12)) := by
  have hjump : s.fetchWord = encode (.jpNnn (s.pc.setWidth 12)) := by
    obtain ⟨hpc, hword, -⟩ := h
    apply BitVec.eq_of_toNat_eq
    rw [hword, encode, packAddr, BitVec.toNat_ofNat, BitVec.toNat_setWidth]
    omega
  rw [hjump, decodeWord_encode rfl]

/-- The jump to itself leaves the state as it is. -/
theorem State.Parked.instructionPhase_eq (h : s.Parked) (hrun : s.runState = .running) : instructionPhase s = .next s := by
  calc instructionPhase s
    _ = exec (.jpNnn (s.pc.setWidth 12)) s := instructionPhase_decoded (h.fetches hrun) h.decodeWord_fetchWord
    _ = .next { s with pc := addrWord (s.pc.setWidth 12) } := rfl
    _ = .next s := by rw [h.addrWord_pc]

end

/-- Settles O12: a parked running state idles through its instruction phase, and the timer phase writes nothing that fetch and
decode read. -/
theorem parkedProgramStaysParked : Obligations.ParkedProgramStaysParked := by
  intro n s hparked hrun
  obtain ⟨t, hcycles, ⟨ht, -⟩, htimers⟩ := cycles_onlyTimersRan (P := fun s => s.Parked ∧ s.runState = .running)
    (fun _ h => h.1.instructionPhase_eq h.2) (fun _ h => h) n ⟨hparked, hrun⟩
  exact ⟨t, hcycles, ht, htimers⟩

/-! ## Timers in the cycle that writes or reads them (R244) -/

/-- Settles O34: the instruction writes its one field (R152 to R154), and the timer phase counts down what it left. -/
theorem timerWritesLagByTheirOwnCycle : Obligations.TimerWritesLagByTheirOwnCycle := by
  intro x s hf
  have hstep {i : Instr} {t : State} := stepRunsTheDecodedInstruction s t i hf
  refine ⟨fun hd => ⟨_, hstep hd rfl, countDown_toNat (s.reg x)⟩, fun hd => ?_, fun hd => ?_⟩
  · have hbuzz : ({ s with st := s.reg x }.advance 2).timerPhase.buzzReady = (s.buzzReady || s.reg x == 1) := rfl
    refine ⟨_, hstep hd rfl, countDown_toNat (s.reg x), fun hone => ?_, fun hne => ?_⟩
    · rw [hbuzz, beq_iff_eq.2 hone, Bool.or_true]
    · rw [hbuzz, beq_eq_false_iff_ne.2 hne, Bool.or_false]
  · have hread : ((s.setReg x s.dt).advance 2).timerPhase.reg x = s.dt := s.reg_setReg_self x s.dt
    exact ⟨_, hstep hd rfl, hread, countDown_toNat s.dt⟩

/-! ## The reset state (R240, R241)

Power-on with the parameters `c` is what `reset()` makes of itself, so what holds after every `reset()` holds of it. -/

section
variable (s : State)

theorem hostReset_reg (j : Reg) : (hostReset s).reg j = 0 := Vector.getElem_replicate j.isLt

/-- Nothing is listed in memory after a reset: each address reads as its reset contents. -/
theorem hostReset_byteAt (a : Nat) : (hostReset s).byteAt a = unlisted s.cfg a := rfl

theorem hostReset_byteAt_font {a : Nat} (ha : a < 80) : (hostReset s).byteAt a = s.cfg.font[a] :=
  (hostReset_byteAt s a).trans (dif_pos ha)

theorem hostReset_byteAt_above {a : Nat} (ha : 80 ≤ a) : (hostReset s).byteAt a = 0 :=
  (hostReset_byteAt s a).trans (dif_neg ha.not_gt)

theorem hostReset_cell (j : Nat) : cell (hostReset s).fb j = false := cell_blankScreen j

/-- A reset leaves the keys, the draw counter and the parameters. -/
theorem hostReset_frame : ChangesOnly [.registers, .index, .pc, .stack, .memory, .screen, .drawReady, .delayTimer,
    .soundTimer, .buzzReady, .waiting, .faultLatch] s (hostReset s) := .of_withParts rfl

/-- A reset establishes the invariant, also from a state without it. -/
theorem hostReset_inv : (hostReset s).Inv where
  memory := Memory.wf_nil _
  stack := Nat.zero_le _
  returns := fun _ ha => absurd ha List.not_mem_nil
  pc := show (0x200 : Word).toNat ≤ 0x10FE by decide
  cause := iff_of_true rfl rfl
  info := fun _ => rfl
  strict := nofun
  exclusive := fun _ => rfl

end

theorem reset_keyHeld (k : Nat) : State.reset.keyHeld k = false := by
  unfold State.keyHeld
  split
  · exact Vector.getElem_replicate _
  · rfl

/-- Settles O55: power-on is what a reset makes of it. -/
theorem powerOnSatisfiesTheInvariant : Obligations.PowerOnSatisfiesTheInvariant := fun c =>
  hostReset_inv { State.reset with cfg := c }

/-- Settles O57: registers, memory and screen read their reset contents, and each other part is its reset value. -/
theorem resetLeavesItsValues : Obligations.ResetLeavesItsValues :=
  ⟨fun s => ⟨hostReset s, rfl, rfl, hostReset_reg s, rfl, rfl, fun _ => hostReset_byteAt_font s,
      fun _ ha _ => hostReset_byteAt_above s ha, hostReset_cell s, rfl, rfl, rfl, rfl, rfl, rfl, rfl, rfl, rfl,
      hostReset_frame s⟩,
    rfl, reset_keyHeld, rfl⟩

end Sys2Proof.Machine
